-- ==== Sys2Proof/Word.lean ====
section
/-! DEFINITION. The word types of GF16EC (spec/00_scope.md R7, R10) and the pair that a point is. -/

namespace Sys2Proof

/-- `Elem` (R10, R20): a field element, bit i the coefficient of x^i. -/
abbrev Elem := BitVec 4

/-- One operand byte of a command word, or the `RESULT` byte of a response (R60, R70). -/
abbrev Byte := BitVec 8

/-- `Wide` (R10, R63): the operand of FDEG and FRED. -/
abbrev Wide := BitVec 8

/-- `Scalar` (R10, R64): the scalar of PMUL. -/
abbrev Scalar := BitVec 8

/-- The command word `cmd[19:0]` (R60). -/
abbrev CmdWord := BitVec 20

/-- The response word `rsp[11:0]` (R70). -/
abbrev RspWord := BitVec 12

/-- `Point` (R10, R21): a pair of field elements, `u` the first coordinate and `v` the second. Two points are
equal when both coordinates are. -/
structure Point where
  u : Elem
  v : Elem
deriving DecidableEq, Repr

/-- `ID` (R10, R21): the pair (0,0) is the identity, whether given, returned or computed. -/
def Point.identity : Point := ⟨0, 0⟩

end Sys2Proof
end

