-- ==== Sys2Proof/Config.lean ====
section
/-! DEFINITION. What is fixed for the machine (spec/00_scope.md R5, R6; spec/10_state.md R23). The widths `CMD_W`, `RSP_W`,
`SCALAR_W` and `WIDE_W` of R6 are the types of Word.lean, `CA` is `State.ca`, and `LAT` is a choice of the samples (log 1).
The spec leaves no value open after a command, so there is no opaque constant here. -/

namespace Sys2Proof.Config

/-- `MINPOL` (R5, R23): x^4 + x + 1, bit pattern `0b10011`, hardwired. -/
def minpol : Nat := 0b10011

/-- The value on the strap `cfg_a` at the reset that `State.reset` stands for. DESIGN CHOICE 0, unsafe: the spec says any of
0..15 and no fixed value (R24, R192, S8). notes/assumptions/2.md. -/
def resetStrap : Elem := 0

/-- How often the loop test of `gf_inv` may be made: five iterations and the test that ends the last (R109, R110).
Exhaustion is a model fault, notes/assumptions/6.md, safe. -/
def invFuel : Nat := 6

/-- "run `pt_ord` under a fuel of 24" (R141): 24 loop tests, 23 additions. notes/assumptions/6.md, safe. -/
def ordFuel : Nat := 24

end Sys2Proof.Config
end

