-- ==== Sys2Proof/Syntax.lean ====
section
/-! DEFINITION. The ten commands of GF16EC (spec/30_encoding.md R67), one constructor per row of spec/opcode_table.json.
An operand has the width its field has (R61 to R64), so an element above 15 cannot be written (U8, "`refuse` at the
type level"). -/

namespace Sys2Proof

inductive Instr where
  | fdeg (w : Wide)
  | fadd (a b : Elem)
  | fmul (a b : Elem)
  | fred (w : Wide)
  | finv (a : Elem)
  | fdiv (a b : Elem)
  | padd (p1 p2 : Point)
  | pneg (p : Point)
  | pmul (p : Point) (c : Scalar)
  | pord (p : Point)
deriving DecidableEq, Repr

end Sys2Proof
end

