-- ==== Sys2Proof/Machine/Operands.lean ====
section
/-! DEFINITION. Fields of the command word and assembly of the six operand formats (spec/30_encoding.md R60 to R66), and the
four result formats of the `RESULT` byte (R71). -/

namespace Sys2Proof.Machine

/-! ## The command word -/

/-- `OPC = cmd[19:16]` (R60). -/
def opc (w : CmdWord) : BitVec 4 := w.extractLsb' 16 4

/-- `A = cmd[15:8]` (R60). -/
def byteA (w : CmdWord) : Byte := w.extractLsb' 8 8

/-- `B = cmd[7:0]` (R60). -/
def byteB (w : CmdWord) : Byte := w.extractLsb' 0 8

/-- The high nibble `x[7:4]` of an operand byte (R7). -/
def highNibble (x : Byte) : Elem := x.extractLsb' 4 4

/-- The low nibble `x[3:0]` of an operand byte (R7): an element operand (R62). -/
def lowNibble (x : Byte) : Elem := x.extractLsb' 0 4

/-- The point in an operand byte: first coordinate in bits [7:4], second in bits [3:0] (R66). -/
def pointOfByte (x : Byte) : Point := ⟨highNibble x, lowNibble x⟩

/-! ## Formats -/

/-- The six operand formats (R61). -/
inductive Format where
  | FW | FF | F1 | PP | P1 | PK
deriving DecidableEq, Repr

/-- Every "must be 0" position of the format (R61) is 0 in the word. -/
def Format.reservedClear (f : Format) (w : CmdWord) : Bool :=
  match f with
  | .FW => byteB w == 0
  | .FF => highNibble (byteA w) == 0 && highNibble (byteB w) == 0
  | .F1 => highNibble (byteA w) == 0 && byteB w == 0
  | .PP => true
  | .P1 => byteB w == 0
  | .PK => true

/-! ## Packing -/

/-- The command word `{OPC, A, B}` (R60). -/
def packCommand (o : BitVec 4) (a b : Byte) : CmdWord := o ++ a ++ b

/-- An element in an operand byte whose high nibble is zero (R61, R62). -/
def elemByte (e : Elem) : Byte := (0 : BitVec 4) ++ e

/-- The byte `{u, v}` (R66). -/
def pointByte (p : Point) : Byte := p.u ++ p.v

/-! ## Result formats (R71) -/

/-- A field element: `RESULT[7:4] = 0`, `RESULT[3:0]` the element. -/
def elemResult (e : Elem) : Byte := e.setWidth 8

/-- A point: `{u, v}`. -/
def pointResult (p : Point) : Byte := p.u ++ p.v

/-- A degree: `(d == -1) ? 0xFF : zext_8(d)` (R73, R102). -/
def degreeResult (d : Int) : Byte := if d = -1 then 0xFF else BitVec.ofNat 8 d.toNat

/-- A count: an 8-bit unsigned integer (R71, R138). -/
def countResult (n : Nat) : Byte := BitVec.ofNat 8 n

end Sys2Proof.Machine
end

