-- ==== Sys2Proof/WellFormed.lean ====
section
/-! DEFINITION. Which operands fit their fields (spec/30_encoding.md R62 to R66), for a command and for a line of the
assembler notation R76, whose numbers have no width of their own and whose misfits an assembler refuses. -/

namespace Sys2Proof

/-- A field element fits 4 bits (R62). -/
def fitsElem (n : Nat) : Bool := decide (n < 16)

/-- A wide operand or a scalar fits 8 bits (R63, R64). -/
def fitsByte (n : Nat) : Bool := decide (n < 256)

/-- A raw word fits the command port (R60). -/
def fitsWord (n : Nat) : Bool := decide (n < 2 ^ 20)

/-- Both coordinates of a point fit (R66). -/
def fitsPoint (p : Nat × Nat) : Bool := fitsElem p.1 && fitsElem p.2

/-- Every operand of the command fits its field. True of every `Instr`, since the types carry the widths (log 10). -/
def Instr.wf : Instr → Bool
  | .fdeg w => fitsByte w.toNat
  | .fadd a b => fitsElem a.toNat && fitsElem b.toNat
  | .fmul a b => fitsElem a.toNat && fitsElem b.toNat
  | .fred w => fitsByte w.toNat
  | .finv a => fitsElem a.toNat
  | .fdiv a b => fitsElem a.toNat && fitsElem b.toNat
  | .padd p q => fitsPoint (p.u.toNat, p.v.toNat) && fitsPoint (q.u.toNat, q.v.toNat)
  | .pneg p => fitsPoint (p.u.toNat, p.v.toNat)
  | .pmul p c => fitsPoint (p.u.toNat, p.v.toNat) && fitsByte c.toNat
  | .pord p => fitsPoint (p.u.toNat, p.v.toNat)

/-- A line of the assembler notation (R76) with its numbers read, the three pseudo-instructions (R77) and the raw word
`.word` among them. A point is a pair of numbers; `ID` is `(0, 0)`. -/
inductive AsmLine where
  | fdeg (w : Nat)
  | fadd (a b : Nat)
  | fmul (a b : Nat)
  | fred (w : Nat)
  | finv (a : Nat)
  | fdiv (a b : Nat)
  | padd (p q : Nat × Nat)
  | pneg (p : Nat × Nat)
  | pmul (p : Nat × Nat) (c : Nat)
  | pord (p : Nat × Nat)
  | fsub (a b : Nat)
  | fsqr (a : Nat)
  | pdbl (p : Nat × Nat)
  | word (w : Nat)
deriving DecidableEq, Repr

/-- "An assembler refuses an operand that does not fit its field" (R76). The scalar 0 fits. -/
def AsmLine.wf : AsmLine → Bool
  | .fdeg w => fitsByte w
  | .fadd a b => fitsElem a && fitsElem b
  | .fmul a b => fitsElem a && fitsElem b
  | .fred w => fitsByte w
  | .finv a => fitsElem a
  | .fdiv a b => fitsElem a && fitsElem b
  | .padd p q => fitsPoint p && fitsPoint q
  | .pneg p => fitsPoint p
  | .pmul p c => fitsPoint p && fitsByte c
  | .pord p => fitsPoint p
  | .fsub a b => fitsElem a && fitsElem b
  | .fsqr a => fitsElem a
  | .pdbl p => fitsPoint p
  | .word w => fitsWord w

end Sys2Proof
end

