-- ==== Sys2Proof/Decode.lean ====
section
/-! DEFINITION. The decoder, total on the 2^20 command words and refusing by name (spec/30_encoding.md R65, R67 to R69), the
encoder written from the table of R76, the opcode table R67 as rows, and the assembler (R76, R77). -/

namespace Sys2Proof
open Machine

/-- Why a word is no command. Either way its execution raises `ILLEGAL` (R163). -/
inductive DecodeError where
  | reservedOpcode
  | reservedOperandBits
deriving DecidableEq, Repr

/-- The operands are read only from a word whose reserved bits are clear (R65, R69). -/
def readOperands (f : Format) (w : CmdWord) (i : Instr) : Except DecodeError Instr :=
  if f.reservedClear w then .ok i else .error .reservedOperandBits

/-- `OPC` first, then the format's reserved bits, then the operands (R65, R67). -/
def decode (w : CmdWord) : Except DecodeError Instr :=
  match (opc w).toNat with
  | 0x1 => readOperands .FW w (.fdeg (byteA w))
  | 0x2 => readOperands .FF w (.fadd (lowNibble (byteA w)) (lowNibble (byteB w)))
  | 0x3 => readOperands .FF w (.fmul (lowNibble (byteA w)) (lowNibble (byteB w)))
  | 0x4 => readOperands .FW w (.fred (byteA w))
  | 0x5 => readOperands .F1 w (.finv (lowNibble (byteA w)))
  | 0x6 => readOperands .FF w (.fdiv (lowNibble (byteA w)) (lowNibble (byteB w)))
  | 0x8 => readOperands .PP w (.padd (pointOfByte (byteA w)) (pointOfByte (byteB w)))
  | 0x9 => readOperands .P1 w (.pneg (pointOfByte (byteA w)))
  | 0xA => readOperands .PK w (.pmul (pointOfByte (byteA w)) (byteB w))
  | 0xB => readOperands .P1 w (.pord (pointOfByte (byteA w)))
  | _ => .error .reservedOpcode

/-- The word of a command, from the table of R76. -/
def encode : Instr → CmdWord
  | .fdeg w => packCommand 0x1 w 0x00
  | .fadd a b => packCommand 0x2 (elemByte a) (elemByte b)
  | .fmul a b => packCommand 0x3 (elemByte a) (elemByte b)
  | .fred w => packCommand 0x4 w 0x00
  | .finv a => packCommand 0x5 (elemByte a) 0x00
  | .fdiv a b => packCommand 0x6 (elemByte a) (elemByte b)
  | .padd p q => packCommand 0x8 (pointByte p) (pointByte q)
  | .pneg p => packCommand 0x9 (pointByte p) 0x00
  | .pmul p c => packCommand 0xA (pointByte p) c
  | .pord p => packCommand 0xB (pointByte p) 0x00

/-! ## The opcode table -/

/-- A row of the table R67. -/
structure Row where
  mnemonic : String
  value : CmdWord
  mask : CmdWord
deriving DecidableEq, Repr

/-- "A word `w` is the command of a row exactly when `(w & mask) == match`" (R67). -/
def Row.covers (r : Row) (w : CmdWord) : Bool := w &&& r.mask == r.value

/-- The row of each command, with the `match` and `mask` columns of R67. -/
def Instr.row : Instr → Row
  | .fdeg _ => ⟨"FDEG", 0x10000, 0xF00FF⟩
  | .fadd _ _ => ⟨"FADD", 0x20000, 0xFF0F0⟩
  | .fmul _ _ => ⟨"FMUL", 0x30000, 0xFF0F0⟩
  | .fred _ => ⟨"FRED", 0x40000, 0xF00FF⟩
  | .finv _ => ⟨"FINV", 0x50000, 0xFF0FF⟩
  | .fdiv _ _ => ⟨"FDIV", 0x60000, 0xFF0F0⟩
  | .padd _ _ => ⟨"PADD", 0x80000, 0xF0000⟩
  | .pneg _ => ⟨"PNEG", 0x90000, 0xF00FF⟩
  | .pmul _ _ => ⟨"PMUL", 0xA0000, 0xF0000⟩
  | .pord _ => ⟨"PORD", 0xB0000, 0xF00FF⟩

/-- The ten rows of R67 in the table's order. -/
def opcodeTable : List Row :=
  [(Instr.fdeg 0).row, (Instr.fadd 0 0).row, (Instr.fmul 0 0).row, (Instr.fred 0).row, (Instr.finv 0).row,
   (Instr.fdiv 0 0).row, (Instr.padd ⟨0, 0⟩ ⟨0, 0⟩).row, (Instr.pneg ⟨0, 0⟩).row, (Instr.pmul ⟨0, 0⟩ 0).row,
   (Instr.pord ⟨0, 0⟩).row]

/-! ## The assembler -/

/-- A pseudo-instruction is "an exact alias of one command" (R77). -/
def AsmLine.expand : AsmLine → AsmLine
  | .fsub a b => .fadd a b
  | .fsqr a => .fmul a a
  | .pdbl p => .padd p p
  | l => l

/-- The point of a pair of numbers that fit. -/
def asmPoint (p : Nat × Nat) : Point := ⟨BitVec.ofNat 4 p.1, BitVec.ofNat 4 p.2⟩

/-- The word of an expanded line whose operands fit (R76). -/
def AsmLine.toWord : AsmLine → Option CmdWord
  | .fdeg w => some (encode (.fdeg (BitVec.ofNat 8 w)))
  | .fadd a b => some (encode (.fadd (BitVec.ofNat 4 a) (BitVec.ofNat 4 b)))
  | .fmul a b => some (encode (.fmul (BitVec.ofNat 4 a) (BitVec.ofNat 4 b)))
  | .fred w => some (encode (.fred (BitVec.ofNat 8 w)))
  | .finv a => some (encode (.finv (BitVec.ofNat 4 a)))
  | .fdiv a b => some (encode (.fdiv (BitVec.ofNat 4 a) (BitVec.ofNat 4 b)))
  | .padd p q => some (encode (.padd (asmPoint p) (asmPoint q)))
  | .pneg p => some (encode (.pneg (asmPoint p)))
  | .pmul p c => some (encode (.pmul (asmPoint p) (BitVec.ofNat 8 c)))
  | .pord p => some (encode (.pord (asmPoint p)))
  | .word w => some (BitVec.ofNat 20 w)
  | .fsub _ _ => none
  | .fsqr _ => none
  | .pdbl _ => none

/-- Assembling a line: none where the assembler refuses it (R76). -/
def assemble (l : AsmLine) : Option CmdWord :=
  if l.wf then l.expand.toWord else none

/-- The instruction the decoder reads from a word of spec/opcode_table.json's numbering: bit 0 of `w` is `cmd[0]`, and the
bits from `nbits` up are 0. A number that needs more than the port's 20 bits is no command word (log 9). -/
def decodeTableWord (nbits w : Nat) : Option Instr :=
  let x := w % 2 ^ nbits
  if fitsWord x then
    match decode (BitVec.ofNat 20 x) with
    | .ok i => some i
    | .error _ => none
  else none

end Sys2Proof
end

