-- ==== Sys2Proof/Machine/State.lean ====
section
/-! DEFINITION. The state of GF16EC (spec/10_state.md R24 to R26, R30, R32): `(CA, PHASE with its word)`, beside what the model
keeps of the host (notes/assumptions/1.md, 4.md); why a step can stop; the state after reset (R192). -/

namespace Sys2Proof.Machine

/-- `PHASE` carrying its word, the form R26 gives: `Idle | Busy (cmd : 20 bits) | Done (rsp : 12 bits)`. `CMDR` is the word
of `busy`, `RSPR` the word of `done` (log 3). -/
inductive Phase where
  /-- No command is held; the engine can accept one. -/
  | idle
  /-- A command has been accepted and not yet executed; it is held in `CMDR`. -/
  | busy (cmdr : CmdWord)
  /-- The command has been executed and its response, held in `RSPR`, has not been taken. -/
  | done (rspr : RspWord)
deriving DecidableEq, Repr

/-- The input pins (R41) as the engine samples them at one step, and whether the execution in progress has ended by then
(`LAT`, R6, R33, R204). The values are the environment's; a claim is about every list of them (log 1, DESIGN CHOICE, safe). -/
structure Sample where
  /-- `rst`, active high (R190). -/
  rst : Bool
  /-- The strap `cfg_a`, looked at only while `rst` is high (R191). -/
  cfgA : Elem
  /-- The host offers a command word. -/
  cmdValid : Bool
  /-- The word on `cmd`. -/
  cmd : CmdWord
  /-- The host can take a response. -/
  rspReady : Bool
  /-- The execution in progress ends at this sample; of no account unless `PHASE = BUSY`. -/
  latDone : Bool
deriving DecidableEq, Repr

/-- The whole state. `ca` and `phase` are the spec's (R30, R32); `inputs` and `outputs` are the model's view of the host. -/
structure State where
  /-- `CA` (R24). -/
  ca : Elem
  /-- `PHASE` with `CMDR` or `RSPR` (R25, R26). -/
  phase : Phase
  /-- The samples of the input pins still to come, first first (log 1). -/
  inputs : List Sample
  /-- The responses delivered to the host, oldest first (R49; log 4). -/
  outputs : List RspWord
deriving DecidableEq, Repr

/-- Why the model can stop. The spec's own errors are statuses of a response, not stops (R164, log 5). -/
inductive Fault where
  /-- Raised where a loop of `gf_red`, `gf_inv` or `pt_ord` runs out of the model's fuel (R141; log 6). Safe: the hardware
  would go on (R174 says it ends), and nothing is claimed of such a run. -/
  | fuelExhausted
deriving DecidableEq, Repr

/-- A step with no meaning. -/
inductive Refusal where
  /-- Raised by an arm of `exec` whose instruction has no meaning yet. Safe. No arm is left so. -/
  | notModelled (mnemonic : String)
deriving DecidableEq, Repr

/-- The three outcomes of a step on this machine. -/
abbrev Out := Host.Outcome State Fault Refusal

/-- The engine right after a reset with `a0` on the strap, before the host does anything (R191, R192). -/
def State.afterReset (a0 : Elem) : State := { ca := a0, phase := .idle, inputs := [], outputs := [] }

/-- The state after reset (R192): `PHASE = IDLE`, and `CA` the strapped value, for which the model takes
`Config.resetStrap` (DESIGN CHOICE 0, unsafe, log 2). The host is quiet and has received nothing. -/
def State.reset : State := State.afterReset Config.resetStrap

end Sys2Proof.Machine
end

