-- ==== Sys2Proof/Machine/Flags.lean ====
section
/-! DEFINITION. GF16EC has no flags (spec/10_state.md R29). What stands in their place is the `STATUS` field of a response
(spec/30_encoding.md R70, R72): the status codes, the response word, and how a computation ends (spec/60_exceptions.md
R160, R165). -/

namespace Sys2Proof.Machine

/-- The complete list of synchronous errors (R160). -/
inductive ErrorStatus where
  | div0
  | badScalar
  | illegal
deriving DecidableEq, Repr

/-- The four statuses that are ever produced (R72, S3). -/
inductive Status where
  | ok
  | error (e : ErrorStatus)
deriving DecidableEq, Repr

/-- The code in `STATUS` (R72). -/
def Status.code : Status → BitVec 4
  | .ok => 0x0
  | .error .div0 => 0x1
  | .error .badScalar => 0x2
  | .error .illegal => 0x3

/-- Reading `STATUS` back: codes 0x4 to 0xF are no status (R72). -/
def Status.ofCode (c : BitVec 4) : Option Status :=
  match c.toNat with
  | 0x0 => some .ok
  | 0x1 => some (.error .div0)
  | 0x2 => some (.error .badScalar)
  | 0x3 => some (.error .illegal)
  | _ => none

/-- `{STATUS, RESULT}` (R70). -/
def packResponse (st : Status) (result : Byte) : RspWord := st.code ++ result

/-- `STATUS = rsp[11:8]` (R70). -/
def rspStatus (r : RspWord) : BitVec 4 := r.extractLsb' 8 4

/-- `RESULT = rsp[7:0]` (R70). -/
def rspResult (r : RspWord) : Byte := r.extractLsb' 0 8

/-- The response of a success: `{0x0, RESULT}` (R73). -/
def okResponse (result : Byte) : RspWord := packResponse .ok result

/-- The response of an error: `{code, 0x00}`, its `RESULT` without meaning (R73, R164). -/
def errorResponse (e : ErrorStatus) : RspWord := packResponse (.error e) 0x00

/-- Why a computation ends without a value: a `raise` (R9), or the model's fuel (log 6). -/
inductive Abort where
  | raised (e : ErrorStatus)
  | outOfFuel
deriving DecidableEq, Repr

/-- A computation of the pseudocode: "A `raise` inside a helper function propagates through every caller up to the command"
(R9). -/
abbrev Calc (α : Type) := Except Abort α

/-- `raise <Status>` (R9). -/
def raise {α : Type} (e : ErrorStatus) : Calc α := .error (.raised e)

end Sys2Proof.Machine
end

