-- ==== Sys2Proof/Machine/Ops.lean ====
section
/-! DEFINITION. The steps of the engine as operations on State (spec/20_memory.md R47 to R50), the raising of an error status
(spec/60_exceptions.md R164), the end of a command, and the output pins (R41). -/

namespace Sys2Proof.Machine

/-! ## The steps (R47 to R50) -/

/-- accept (R47): `CMDR <- w ; PHASE <- BUSY`. -/
def State.accept (w : CmdWord) (s : State) : State := { s with phase := .busy w }

/-- The writes of execute (R48): `RSPR <- r ; PHASE <- DONE`. -/
def State.complete (r : RspWord) (s : State) : State := { s with phase := .done r }

/-- deliver (R49): `output RSPR to the host ; PHASE <- IDLE`, `r` being `RSPR`. -/
def State.deliver (r : RspWord) (s : State) : State := { s with phase := .idle, outputs := s.outputs ++ [r] }

/-- reset (R50, R193): `CA <- a0 ; PHASE <- IDLE`; a word in flight is dropped. -/
def State.resetTo (a0 : Elem) (s : State) : State := { s with ca := a0, phase := .idle }

/-! ## Errors (R164) -/

/-- Raising an error status, the one way an error is delivered: `RSPR <- {code, 0x00}`, `PHASE <- DONE` "exactly as for a
success"; nothing is saved, no mode or mask changes, control goes nowhere, `CA` is unchanged (R164). There is no return from
it (R169): deliver follows, as after a success (R166). -/
def State.raiseStatus (e : ErrorStatus) (s : State) : State := s.complete (errorResponse e)

/-- The end of a command whose rule computes `RESULT`: a value gives `{OK, RESULT}`, a raised status its error response (R73);
only the model's fuel stops the machine (log 6). -/
def respond (c : Calc Byte) (s : State) : Out :=
  match c with
  | .ok result => .next (s.complete (okResponse result))
  | .error (.raised e) => .next (s.raiseStatus e)
  | .error .outOfFuel => .fault .fuelExhausted

/-! ## The output pins (R41) -/

/-- `cmd_ready = (PHASE == IDLE) and not rst` (R41). -/
def State.cmdReady (rst : Bool) (s : State) : Bool := s.phase == .idle && !rst

/-- `rsp_valid = (PHASE == DONE) and not rst` (R41). -/
def State.rspValid (rst : Bool) (s : State) : Bool :=
  match s.phase with
  | .done _ => !rst
  | _ => false

/-- `rsp`: equal to `RSPR` while `rsp_valid`, otherwise unspecified (R41, S5), for which the model gives no value (log 8). -/
def State.rspPin (rst : Bool) (s : State) : Option RspWord :=
  match s.phase with
  | .done r => if rst then none else some r
  | _ => none

/-- A command transfer happens at this sample (R42). -/
def State.commandTransfer (x : Sample) (s : State) : Bool := x.cmdValid && s.cmdReady x.rst

/-- A response transfer happens at this sample (R43). -/
def State.responseTransfer (x : Sample) (s : State) : Bool := x.rspReady && s.rspValid x.rst

/-! ## Placing a command -/

/-- The sample that lets a BUSY engine execute and offers nothing. -/
def Sample.run : Sample :=
  { rst := false, cfgA := 0, cmdValid := false, cmd := 0, rspReady := false, latDone := true }

/-- `s` with `w` in `CMDR` and `PHASE = BUSY`, so that the next step executes `w`. Where the next sample would reset the
engine or leave it computing, a sample that lets it execute is put before it (log 9). -/
def State.placeCommand (w : CmdWord) (s : State) : State :=
  { s with
    phase := .busy w
    inputs :=
      match s.inputs with
      | [] => []
      | x :: xs => if x.rst || !x.latDone then Sample.run :: x :: xs else x :: xs }

end Sys2Proof.Machine
end

