-- ==== Sys2Proof/Machine/Field.lean ====
section
/-! DEFINITION. The field unit: the functions of spec/40_field.md (R101, R103, R105, R107, R109, R112) on the integers of its
pseudocode, and the meanings of FDEG, FADD, FMUL, FRED, FINV and FDIV. -/

namespace Sys2Proof.Machine

/-! ## Functions -/

/-- `bitlen(v)` (R8): the number of bits needed to write `v`. -/
def bitlen (v : Nat) : Nat := if v = 0 then 0 else Nat.log2 v + 1

/-- `deg(v) = bitlen(v) - 1`, signed (R101). -/
def deg (v : Nat) : Int := (bitlen v : Int) - 1

/-- `gf_add(a, b) = a ^ b` (R103). -/
def gfAdd (a b : Elem) : Elem := a ^^^ b

/-- One pass of the loop of `gf_mul` on `(acc, t)` for bit `i` of `b` (R105). -/
def gfMulStep (b : Elem) (st : Nat × Nat) (i : Nat) : Nat × Nat :=
  let acc := if b.getLsbD i then st.1 ^^^ st.2 else st.1
  let t := st.2 <<< 1
  (acc, if t &&& 0x10 ≠ 0 then t ^^^ Config.minpol else t)

/-- `gf_mul(a, b)` (R105): shift and XOR over the four bits of `b` from the least significant, the result masked to 4 bits. -/
def gfMul (a b : Elem) : Elem :=
  let st := [0, 1, 2, 3].foldl (gfMulStep b) (0, a.toNat)
  BitVec.ofNat 4 (st.1 &&& 0xF)

/-- The loop of `gf_red` (R107) under fuel. -/
def gfRedLoop : Nat → Nat → Calc Elem
  | 0, v => if v ≥ 16 then .error .outOfFuel else .ok (BitVec.ofNat 4 v)
  | fuel + 1, v =>
    if v ≥ 16 then gfRedLoop fuel (v ^^^ (Config.minpol <<< (deg v - 4).toNat)) else .ok (BitVec.ofNat 4 v)

/-- `gf_red(v)` (R107), for every natural number; each pass lowers the degree, so the bit length is fuel enough (log 6). -/
def gfRed (v : Nat) : Calc Elem := gfRedLoop (bitlen v) v

/-- The loop of `gf_inv` (R109) under fuel, on `n`, `mp`, `c1`, `c2` and the signed `difference`. -/
def gfInvLoop : Nat → Nat → Nat → Nat → Nat → Int → Calc Elem
  | 0, _, _, _, _, _ => .error .outOfFuel
  | fuel + 1, n, mp, c1, c2, difference =>
    if n = 1 then .ok (BitVec.ofNat 4 c1)
    else if difference < 0 then
      let shift := (-difference).toNat
      let n' := (mp ^^^ (n <<< shift)) &&& 0xF
      let c1' := (c2 ^^^ (c1 <<< shift)) &&& 0xF
      gfInvLoop fuel n' n c1' c1 (deg n' - deg n)
    else
      let shift := difference.toNat
      let n' := (n ^^^ (mp <<< shift)) &&& 0xF
      let c1' := (c1 ^^^ (c2 <<< shift)) &&& 0xF
      gfInvLoop fuel n' mp c1' c2 (deg n' - deg mp)

/-- `gf_inv(a)` (R109): no value at 0, where `DIV0` is raised (R161); the reduce step is the 4-bit mask (C1 of
spec/90_conflicts.md). -/
def gfInv (a : Elem) : Calc Elem :=
  if a = 0 then raise .div0
  else gfInvLoop Config.invFuel a.toNat Config.minpol 1 0 (deg a.toNat - 4)

/-- `gf_div(a, b) = gf_mul(a, gf_inv(b))` (R112). -/
def gfDiv (a b : Elem) : Calc Elem := do
  let i ← gfInv b
  return gfMul a i

/-! ## Meanings -/

/-- FDEG (R102). -/
def execFdeg (w : Wide) (s : State) : Out := respond (.ok (degreeResult (deg w.toNat))) s

/-- FADD (R104). -/
def execFadd (a b : Elem) (s : State) : Out := respond (.ok (elemResult (gfAdd a b))) s

/-- FMUL (R106). -/
def execFmul (a b : Elem) (s : State) : Out := respond (.ok (elemResult (gfMul a b))) s

/-- FRED (R108). -/
def execFred (w : Wide) (s : State) : Out := respond (elemResult <$> gfRed w.toNat) s

/-- FINV (R111); `DIV0` if `a == 0`. -/
def execFinv (a : Elem) (s : State) : Out := respond (elemResult <$> gfInv a) s

/-- FDIV (R113); `DIV0` if `b == 0`, whatever `a` is. -/
def execFdiv (a b : Elem) (s : State) : Out := respond (elemResult <$> gfDiv a b) s

end Sys2Proof.Machine
end

