-- ==== Sys2Proof/Machine/Curve.lean ====
section
/-! DEFINITION. The curve unit: the functions of spec/41_curve.md (R131, R133, R135, R137), every inner addition the whole
five-case `pt_add`, and the meanings of PADD, PNEG, PMUL and PORD. -/

namespace Sys2Proof.Machine

/-! ## Functions -/

/-- `pt_neg((u, v)) = (u, gf_add(u, v))` (R133). -/
def ptNeg (p : Point) : Point := ⟨p.u, gfAdd p.u p.v⟩

/-- Case 4 of `pt_add` (R131), the doubling of `(r1, s1)`. -/
def ptDouble (ca : Elem) (p : Point) : Calc Point := do
  let q ← gfDiv p.v p.u
  let m := gfAdd p.u q
  let m2 := gfMul m m
  let u := gfAdd (gfAdd m2 m) ca
  let v := gfAdd (gfAdd (gfAdd (gfMul m p.u) (gfMul m u)) u) p.v
  return ⟨u, v⟩

/-- Case 5 of `pt_add` (R131), the generic addition; raises `DIV0` when the first coordinates are equal (R139). -/
def ptChord (ca : Elem) (p1 p2 : Point) : Calc Point := do
  let s := gfAdd p2.v p1.v
  let r := gfAdd p2.u p1.u
  let m ← gfDiv s r
  let u := gfAdd (gfAdd (gfAdd (gfAdd (gfMul m m) m) ca) p1.u) p2.u
  let v := gfAdd (gfAdd (gfMul m (gfAdd u p1.u)) u) p1.v
  return ⟨u, v⟩

/-- `pt_add(CA, p1, p2)` (R131): "the cases are tried in this order and the first that applies decides". -/
def ptAdd (ca : Elem) (p1 p2 : Point) : Calc Point :=
  if p1 = Point.identity then .ok p2
  else if p2 = Point.identity then .ok p1
  else if p1 = ptNeg p2 ∨ p2 = ptNeg p1 then .ok Point.identity
  else if p1 = p2 then ptDouble ca p1
  else ptChord ca p1 p2

/-- The loop of `pt_mul` (R135): bits `k-1` downto 0 of `c` are still to be read. -/
def ptMulLoop (ca : Elem) (p : Point) (c : Nat) : Nat → Point → Calc Point
  | 0, result => .ok result
  | i + 1, result => do
    let doubled ← ptAdd ca result result
    let next ← (if c.testBit i then ptAdd ca doubled p else .ok doubled)
    ptMulLoop ca p c i next

/-- `pt_mul(CA, p, c)` (R135), for every positive integer `c`. It has no value at 0 (U4): the check that R136 makes first
stands here, so that the function answers no point there. -/
def ptMul (ca : Elem) (p : Point) (c : Nat) : Calc Point :=
  if c = 0 then raise .badScalar else ptMulLoop ca p c (bitlen c - 1) p

/-- The loop of `pt_ord` (R137) under fuel. -/
def ptOrdLoop (ca : Elem) (p : Point) : Nat → Point → Nat → Calc Nat
  | 0, _, _ => .error .outOfFuel
  | fuel + 1, q, count =>
    if q = Point.identity then .ok count
    else do
      let next ← ptAdd ca q p
      ptOrdLoop ca p fuel next (count + 1)

/-- `pt_ord(CA, p)` (R137): the test comes before the first addition. -/
def ptOrd (ca : Elem) (p : Point) : Calc Nat := ptOrdLoop ca p Config.ordFuel p 1

/-! ## Meanings -/

/-- PADD (R132); `DIV0` under the condition of R139. -/
def execPadd (p1 p2 : Point) (s : State) : Out := respond (pointResult <$> ptAdd s.ca p1 p2) s

/-- PNEG (R134). -/
def execPneg (p : Point) (s : State) : Out := respond (.ok (pointResult (ptNeg p))) s

/-- PMUL (R136); `BAD_SCALAR` if `c == 0`, whatever `p` is. -/
def execPmul (p : Point) (c : Scalar) (s : State) : Out := respond (pointResult <$> ptMul s.ca p c.toNat) s

/-- PORD (R138). -/
def execPord (p : Point) (s : State) : Out := respond (countResult <$> ptOrd s.ca p) s

end Sys2Proof.Machine
end

