-- ==== Sys2Proof/Machine/Dispatch.lean ====
section
/-! DEFINITION. One arm per command (spec/30_encoding.md R73): the execute step of a decoded command. -/

namespace Sys2Proof.Machine

def exec (i : Instr) (s : State) : Host.Outcome State Fault Refusal :=
  match i with
  | .fdeg w => Sys2Proof.Machine.execFdeg w s
  | .fadd a b => Sys2Proof.Machine.execFadd a b s
  | .fmul a b => Sys2Proof.Machine.execFmul a b s
  | .fred w => Sys2Proof.Machine.execFred w s
  | .finv a => Sys2Proof.Machine.execFinv a s
  | .fdiv a b => Sys2Proof.Machine.execFdiv a b s
  | .padd p1 p2 => Sys2Proof.Machine.execPadd p1 p2 s
  | .pneg p => Sys2Proof.Machine.execPneg p s
  | .pmul p c => Sys2Proof.Machine.execPmul p c s
  | .pord p => Sys2Proof.Machine.execPord p s

end Sys2Proof.Machine
end

