-- ==== Sys2Proof/Machine/Transaction.lean ====
section
/-! DEFINITION. What one step of the engine does (spec/20_memory.md R47 to R50): the execution of the word in `CMDR`, the step at
one sample of the pins, and the step when the host is quiet. -/

namespace Sys2Proof.Machine

/-- execute (R48) on `CMDR = w`: decode, then the command's meaning; a word that is no command raises `ILLEGAL` with no
computation attempted (R163). -/
def runCommand (w : CmdWord) (s : State) : Out :=
  match decode w with
  | .ok i => exec i s
  | .error _ => .next (s.raiseStatus .illegal)

/-- The step at one sample of the pins. `rst` high wins over everything else (R41, R190, R191); then the phase says which of
accept, execute and deliver is enabled (R47 to R49), and without its transfer nothing changes (R46). -/
def stepAt (x : Sample) (s : State) : Out :=
  if x.rst then .next (s.resetTo x.cfgA)
  else match s.phase with
    | .idle => .next (if x.cmdValid then s.accept x.cmd else s)
    | .busy w => if x.latDone then runCommand w s else .next s
    | .done r => .next (if x.rspReady then s.deliver r else s)

/-- The step when the host is quiet: an IDLE or DONE engine waits (R54, R49), a BUSY one executes, which "needs no input
from the host" (R48). The model's form of the weak fairness of R48 (log 7). -/
def stepQuiet (s : State) : Out :=
  match s.phase with
  | .idle => .next s
  | .busy w => runCommand w s
  | .done _ => .next s

/-- One step: take the next sample, or none. -/
def stepNext (s : State) : Out :=
  match s.inputs with
  | [] => stepQuiet s
  | x :: rest => stepAt x { s with inputs := rest }

end Sys2Proof.Machine
end

