-- ==== Sys2Proof/Machine/Step.lean ====
section
/-! DEFINITION. The step of the machine (spec/20_memory.md R47 to R50), and the placing of a command where execute reads it. -/

namespace Sys2Proof.Machine

/-- One step of the engine. -/
def step (s : State) : Host.Outcome State Fault Refusal := stepNext s

/-- `s` with the word `w` (its bits from `nbits` up zero, its bits above the port's 20 dropped) in `CMDR` and `PHASE = BUSY`,
so that the next step executes exactly it. GF16EC fetches nothing (R28, R53): this stands for the accept step of a host that
offered the word (log 9). -/
def State.withFetchWord (s : State) (nbits w : Nat) : State := s.placeCommand (BitVec.ofNat 20 (w % 2 ^ nbits))

end Sys2Proof.Machine
end

