-- ==== Sys2Proof/Machine/Assembler.lean ====
section
/-! DEFINITION. Reading a line of the assembler notation from its text (spec/30_encoding.md R76): tokens, the command with its
operands, the comment, and the expected response after `->`. What R76 leaves open of spelling is notes/assumptions/12.md. -/

namespace Sys2Proof.Machine

/-! ## Tokens -/

/-- A token of a line. A point is read from the tokens between its parentheses. -/
inductive AsmToken where
  | name (s : List Char)
  | num (n : Nat)
  | comma
  | lpar
  | rpar
deriving DecidableEq, Repr

/-- The value of a digit; hexadecimal letters in either case (log 12). -/
def digitValue (c : Char) : Option Nat :=
  if '0' ≤ c && c ≤ '9' then some (c.toNat - 48)
  else if 'A' ≤ c && c ≤ 'F' then some (c.toNat - 55)
  else if 'a' ≤ c && c ≤ 'f' then some (c.toNat - 87)
  else none

/-- The number of a run of digits in a base, from the value read so far. -/
def readDigits (base : Nat) : Nat → List Char → Option Nat
  | acc, [] => some acc
  | acc, c :: cs =>
    match digitValue c with
    | some d => if d < base then readDigits base (acc * base + d) cs else none
    | none => none

/-- A number: "decimal, `0x` hexadecimal or `0b` binary" (R76). -/
def readNumber : List Char → Option Nat
  | '0' :: 'x' :: c :: cs => readDigits 16 0 (c :: cs)
  | '0' :: 'b' :: c :: cs => readDigits 2 0 (c :: cs)
  | c :: cs => readDigits 10 0 (c :: cs)
  | [] => none

/-- The tokens `ts` preceded by the token of the characters collected in `acc`, last first. -/
def withToken (acc : List Char) (ts : List AsmToken) : Option (List AsmToken) :=
  match acc.reverse with
  | [] => some ts
  | c :: cs =>
    if '0' ≤ c && c ≤ '9' then (readNumber (c :: cs)).map fun n => .num n :: ts
    else some (.name (c :: cs) :: ts)

/-- The tokens of the characters still to come, `acc` holding those of the token begun. -/
def lexFrom : List Char → List Char → Option (List AsmToken)
  | [], acc => withToken acc []
  | c :: cs, acc =>
    if c = ' ' || c = '\t' then lexFrom cs [] >>= withToken acc
    else if c = ',' then lexFrom cs [] >>= fun ts => withToken acc (.comma :: ts)
    else if c = '(' then lexFrom cs [] >>= fun ts => withToken acc (.lpar :: ts)
    else if c = ')' then lexFrom cs [] >>= fun ts => withToken acc (.rpar :: ts)
    else lexFrom cs (c :: acc)

/-! ## Lines -/

/-- "A point is `(u, v)` with two numbers ..., or the word `ID` for (0,0)" (R76). -/
def readPoint : List AsmToken → Option ((Nat × Nat) × List AsmToken)
  | .lpar :: .num u :: .comma :: .num v :: .rpar :: rest => some ((u, v), rest)
  | .name s :: rest => if s = "ID".toList then some ((0, 0), rest) else none
  | _ => none

/-- A line with one number. -/
def oneNumber (m : List Char) (a : Nat) : Option AsmLine :=
  if m = "FDEG".toList then some (.fdeg a)
  else if m = "FRED".toList then some (.fred a)
  else if m = "FINV".toList then some (.finv a)
  else if m = "FSQR".toList then some (.fsqr a)
  else if m = ".word".toList then some (.word a)
  else none

/-- A line with two numbers. -/
def twoNumbers (m : List Char) (a b : Nat) : Option AsmLine :=
  if m = "FADD".toList then some (.fadd a b)
  else if m = "FMUL".toList then some (.fmul a b)
  else if m = "FDIV".toList then some (.fdiv a b)
  else if m = "FSUB".toList then some (.fsub a b)
  else none

/-- A line with one point. -/
def onePoint (m : List Char) (p : Nat × Nat) : Option AsmLine :=
  if m = "PNEG".toList then some (.pneg p)
  else if m = "PORD".toList then some (.pord p)
  else if m = "PDBL".toList then some (.pdbl p)
  else none

/-- A mnemonic and its operands (the table of R76, and R77). -/
def readCommand : List AsmToken → Option AsmLine
  | [.name m, .num a] => oneNumber m a
  | [.name m, .num a, .comma, .num b] => twoNumbers m a b
  | .name m :: rest =>
    match readPoint rest with
    | some (p, []) => onePoint m p
    | some (p, [.comma, .num c]) => if m = "PMUL".toList then some (.pmul p c) else none
    | some (p, .comma :: more) =>
      match readPoint more with
      | some (q, []) => if m = "PADD".toList then some (.padd p q) else none
      | _ => none
    | _ => none
  | _ => none

/-- The expected response: "`OK value` or ... an error name" (R76). -/
def readExpected : List AsmToken → Option RspWord
  | [.name e] =>
    if e = "DIV0".toList then some (errorResponse .div0)
    else if e = "BAD_SCALAR".toList then some (errorResponse .badScalar)
    else if e = "ILLEGAL".toList then some (errorResponse .illegal)
    else none
  | .name k :: value =>
    if k = "OK".toList then
      match value with
      | [.num n] => if fitsByte n then some (okResponse (BitVec.ofNat 8 n)) else none
      | _ =>
        match readPoint value with
        | some (p, []) => if fitsPoint p then some (okResponse (pointResult (asmPoint p))) else none
        | _ => none
    else none
  | _ => none

/-- The text before the arrow `->`, and the text after it if there is one. -/
def splitArrow : List Char → List Char × Option (List Char)
  | [] => ([], none)
  | c :: cs =>
    match c, cs with
    | '-', '>' :: rest => ([], some rest)
    | _, _ => let r := splitArrow cs; (c :: r.1, r.2)

/-- A line of a program: its command, and the response written after it. -/
structure SourceLine where
  line : AsmLine
  expected : Option RspWord
deriving DecidableEq, Repr

/-- Reading a line; "A comment runs from `;` to the end of the line" (R76). -/
def readSource (text : String) : Option SourceLine :=
  let parts := splitArrow (text.toList.takeWhile fun c => c != ';')
  match lexFrom parts.1 [] >>= readCommand with
  | none => none
  | some l =>
    match parts.2 with
    | none => some ⟨l, none⟩
    | some e => (lexFrom e [] >>= readExpected).map fun r => ⟨l, some r⟩

/-- The word of a line of text, where it is a line of the notation and its operands fit. -/
def assembleText (text : String) : Option CmdWord := readSource text >>= fun l => assemble l.line

end Sys2Proof.Machine
end

