-- ==== Sys2Proof/Safety.lean ====
section
/-! DEFINITION. The terms in which claims are made: the execution function of spec/30_encoding.md R73 as one text, the
carry-less product (R118), curve membership (R130), copies of a point (R136), the end of a run (R56), and what a run
accepted and still owes (R51). -/

namespace Sys2Proof.Safety
open Sys2Proof.Machine

/-! ## The execution function R73 -/

/-- The `try` part of `exec(CA, w)` (R73), in the order of its text. -/
def resultOf (ca : Elem) (w : CmdWord) : Calc Byte :=
  let A := byteA w
  let B := byteB w
  match (opc w).toNat with
  | 0x1 => if B ≠ 0 then raise .illegal else .ok (degreeResult (deg A.toNat))
  | 0x2 => if highNibble A ≠ 0 ∨ highNibble B ≠ 0 then raise .illegal else
      .ok (elemResult (gfAdd (lowNibble A) (lowNibble B)))
  | 0x3 => if highNibble A ≠ 0 ∨ highNibble B ≠ 0 then raise .illegal else
      .ok (elemResult (gfMul (lowNibble A) (lowNibble B)))
  | 0x4 => if B ≠ 0 then raise .illegal else elemResult <$> gfRed A.toNat
  | 0x5 => if highNibble A ≠ 0 ∨ B ≠ 0 then raise .illegal else elemResult <$> gfInv (lowNibble A)
  | 0x6 => if highNibble A ≠ 0 ∨ highNibble B ≠ 0 then raise .illegal else
      elemResult <$> gfDiv (lowNibble A) (lowNibble B)
  | 0x8 => pointResult <$> ptAdd ca (pointOfByte A) (pointOfByte B)
  | 0x9 => if B ≠ 0 then raise .illegal else .ok (pointResult (ptNeg (pointOfByte A)))
  | 0xA => if B = 0 then raise .badScalar else pointResult <$> ptMul ca (pointOfByte A) B.toNat
  | 0xB => if B ≠ 0 then raise .illegal else countResult <$> ptOrd ca (pointOfByte A)
  | _ => raise .illegal

/-- `exec(CA, w)` (R73) with its `catch` part. `none` only where the model's fuel gave out (log 6). -/
def responseTo (ca : Elem) (w : CmdWord) : Option RspWord :=
  match resultOf ca w with
  | .ok result => some (0x0#4 ++ result)
  | .error (.raised .illegal) => some 0x300
  | .error (.raised .badScalar) => some 0x200
  | .error (.raised .div0) => some 0x100
  | .error .outOfFuel => none

/-! ## Polynomials and curves -/

/-- `clmul(a, b)`: "the XOR over the set bits i of `b` of `a << i`" (R118), `b` below 256. -/
def clmul (a b : Nat) : Nat :=
  (List.range 8).foldl (fun acc i => if b.testBit i then acc ^^^ (a <<< i) else acc) 0

/-- A non-identity point lies on the curve with coefficient `b` (R130). -/
def onCurve (ca b : Elem) (p : Point) : Bool :=
  gfMul p.v p.v ^^^ gfMul p.u p.v
    == gfMul (gfMul p.u p.u) p.u ^^^ gfMul ca (gfMul p.u p.u) ^^^ b

/-- A valid point (R11): `ID`, or on the curve. -/
def valid (ca b : Elem) (p : Point) : Bool := p == Point.identity || onCurve ca b p

/-- `k + 1` copies of `p` combined by `pt_add`: "`p` added to itself" `k` times (R136). -/
def copies (ca : Elem) (p : Point) : Nat → Calc Point
  | 0 => .ok p
  | k + 1 => do
    let q ← copies ca p k
    ptAdd ca q p

/-- `pt_add` meets a zero divisor on these operands (R139). -/
def meetsZeroDivisor (p1 p2 : Point) : Bool :=
  p1 != Point.identity && p2 != Point.identity && p1.u == p2.u && p2.v != p1.v && p2.v != p1.v ^^^ p1.u

/-! ## Runs -/

/-- "A run of a command sequence is over when ... `PHASE == IDLE` and the host has no further command" (R56). -/
def runOver (s : State) : Bool := s.phase == .idle && s.inputs.all fun x => !x.cmdValid

/-- The next sample takes `s` through its next step without a reset and, were it BUSY, lets it execute. -/
def mayExecute (s : State) : Bool :=
  match s.inputs with
  | [] => true
  | x :: _ => !x.rst && x.latDone

/-- `s` with its next sample, if any, taken. -/
def sampleTaken (s : State) : State := { s with inputs := s.inputs.tail }

/-- The command the next step accepts, with the `CA` it will be executed under. -/
def accepting (s : State) : List (Elem × CmdWord) :=
  match s.inputs with
  | [] => []
  | x :: _ => if s.commandTransfer x then [(s.ca, x.cmd)] else []

/-- The commands accepted in the next `k` steps, in order. -/
def acceptedIn : Nat → State → List (Elem × CmdWord)
  | 0, _ => []
  | k + 1, s =>
    match step s with
    | .next t => accepting s ++ acceptedIn k t
    | _ => []

/-- The response the engine still owes for the command inside it (R51: at most one). -/
def owed (s : State) : List (Option RspWord) :=
  match s.phase with
  | .idle => []
  | .busy w => [responseTo s.ca w]
  | .done r => [some r]

/-- What `RSPR` holds is a response of R70 to R72: a status that exists, and `RESULT` zero unless it is `OK` (R164). -/
def responseSound (s : State) : Bool :=
  match s.phase with
  | .done r => rspStatus r == 0x0 || ((rspStatus r == 0x1 || rspStatus r == 0x2 || rspStatus r == 0x3) && rspResult r == 0x00)
  | _ => true

end Sys2Proof.Safety
end

