-- ==== Sys2Proof/Certificates/Slice0/Obligations.lean ====
section
/-! DEFINITION. The statements for the provers. Each docstring names the rule of spec/ it formalises. A response word is
written out as `STATUS ++ RESULT` (R70), not through the model's packing. -/

namespace Sys2Proof.Claims
open Sys2Proof.Machine

/-- `s` with the response `r` in `RSPR` and `PHASE = DONE`, and nothing else changed: what a command leaves (R48). -/
def answered (r : RspWord) (s : State) : State :=
  { ca := s.ca, phase := .done r, inputs := s.inputs, outputs := s.outputs }

/-- The table R67 as the spec prints it: `match` and `mask`, in its order. -/
def printedTable : List (String × CmdWord × CmdWord) :=
  [("FDEG", 0x10000, 0xF00FF), ("FADD", 0x20000, 0xFF0F0), ("FMUL", 0x30000, 0xFF0F0), ("FRED", 0x40000, 0xF00FF),
   ("FINV", 0x50000, 0xFF0FF), ("FDIV", 0x60000, 0xFF0F0), ("PADD", 0x80000, 0xF0000), ("PNEG", 0x90000, 0xF00FF),
   ("PMUL", 0xA0000, 0xF0000), ("PORD", 0xB0000, 0xF00FF)]

/-- The reserved opcodes of R68. -/
def reservedOpcodes : List (BitVec 4) := [0x0, 0x7, 0xC, 0xD, 0xE, 0xF]

/-- The "must be 0" positions of the format of an opcode (R61, R67) as a mask over the command word. -/
def mustBeZero (o : BitVec 4) : CmdWord :=
  if o ∈ [0x1, 0x4, 0x9, 0xB] then 0x000FF
  else if o ∈ [0x2, 0x3, 0x6] then 0x0F0F0
  else if o = 0x5 then 0x0F0FF
  else 0x00000

/-- The statuses a command can return, by its opcode (R160). -/
def statusesOf (o : BitVec 4) : List (BitVec 4) :=
  if o ∈ [0x1, 0x2, 0x3, 0x4, 0x9, 0xB] then [0x0, 0x3]
  else if o ∈ [0x5, 0x6] then [0x0, 0x1, 0x3]
  else if o = 0x8 then [0x0, 0x1]
  else if o = 0xA then [0x0, 0x2]
  else [0x3]

/-- The commands that do not read `CA` (R24, R100): those of the field unit, and PNEG. -/
def ignoresCoefficient : Instr → Bool
  | .padd _ _ => false
  | .pmul _ _ => false
  | .pord _ => false
  | _ => true

/-- The multiplication table of R116, row `a`, column `b`. -/
def mulTable : List (List Nat) :=
  [[0, 0, 0, 0, 0, 0, 0, 0, 0, 0, 0, 0, 0, 0, 0, 0], [0, 1, 2, 3, 4, 5, 6, 7, 8, 9, 10, 11, 12, 13, 14, 15],
   [0, 2, 4, 6, 8, 10, 12, 14, 3, 1, 7, 5, 11, 9, 15, 13], [0, 3, 6, 5, 12, 15, 10, 9, 11, 8, 13, 14, 7, 4, 1, 2]] ++
  [[0, 4, 8, 12, 3, 7, 11, 15, 6, 2, 14, 10, 5, 1, 13, 9], [0, 5, 10, 15, 7, 2, 13, 8, 14, 11, 4, 1, 9, 12, 3, 6],
   [0, 6, 12, 10, 11, 13, 7, 1, 5, 3, 9, 15, 14, 8, 2, 4], [0, 7, 14, 9, 15, 8, 1, 6, 13, 10, 3, 4, 2, 5, 12, 11]] ++
  [[0, 8, 3, 11, 6, 14, 5, 13, 12, 4, 15, 7, 10, 2, 9, 1], [0, 9, 1, 8, 2, 11, 3, 10, 4, 13, 5, 12, 6, 15, 7, 14],
   [0, 10, 7, 13, 14, 4, 9, 3, 15, 5, 8, 2, 1, 11, 6, 12], [0, 11, 5, 14, 10, 1, 15, 4, 7, 12, 2, 9, 13, 6, 8, 3]] ++
  [[0, 12, 11, 7, 5, 9, 14, 2, 10, 6, 1, 13, 15, 3, 4, 8], [0, 13, 9, 4, 1, 12, 8, 5, 2, 15, 11, 6, 3, 14, 10, 7],
   [0, 14, 15, 1, 13, 3, 2, 12, 9, 7, 6, 8, 4, 10, 11, 5], [0, 15, 13, 2, 9, 6, 4, 11, 1, 14, 12, 3, 8, 7, 5, 10]]

/-- The inverse table of R117, for `a` from 1 to 15. -/
def inverseTable : List Nat := [1, 9, 14, 13, 11, 7, 6, 15, 2, 12, 5, 10, 4, 3, 8]

/-- `gf_inv`'s loop with `gf_red` in the place of its two masks, the other reading of conflict C1. -/
def reducingInvLoop : Nat → Nat → Nat → Nat → Nat → Int → Calc Elem
  | 0, _, _, _, _, _ => .error .outOfFuel
  | fuel + 1, n, mp, c1, c2, d =>
    if n = 1 then .ok (BitVec.ofNat 4 c1)
    else do
      let (n0, mp0, k1, k2, shift) := if d < 0 then (mp, n, c2, c1, (-d).toNat) else (n, mp, c1, c2, d.toNat)
      let n' ← gfRed (n0 ^^^ (mp0 <<< shift))
      let k' ← gfRed (k1 ^^^ (k2 <<< shift))
      reducingInvLoop fuel n'.toNat mp0 k'.toNat k2 (deg n'.toNat - deg mp0)

end Sys2Proof.Claims

open Sys2Proof Sys2Proof.Machine Sys2Proof.Safety Sys2Proof.Claims

/-! ## Encoding -/

/-- Every command, with every operand at every value its field admits, is what the decoder reads from its word (R60 to R67,
R76). -/
def Obligations.DecodeInvertsEncode : Prop := ∀ i : Instr, decode (encode i) = .ok i

/-- A word that decodes has no other spelling: the encoder gives it back, bit for bit (R67, R75). -/
def Obligations.EncodeInvertsDecode : Prop := ∀ (w : CmdWord) (i : Instr), decode w = .ok i → encode i = w

/-- R67 whole: the model's table is the printed one; a word is a command of a row exactly when `(w & mask) == match`; the rows are
pairwise disjoint; bit 3 of `OPC` selects the unit. -/
def Obligations.DecodeFollowsOpcodeTable : Prop :=
  (opcodeTable.map fun r => (r.mnemonic, r.value, r.mask)) = printedTable ∧
  (∀ (w : CmdWord) (i : Instr), decode w = .ok i → i.row ∈ opcodeTable ∧ w &&& i.row.mask = i.row.value) ∧
  (∀ (w : CmdWord) (r : Row), r ∈ opcodeTable → w &&& r.mask = r.value → ∃ i, decode w = .ok i ∧ i.row = r) ∧
  (∀ (w : CmdWord) (r q : Row), r ∈ opcodeTable → q ∈ opcodeTable → w &&& r.mask = r.value → w &&& q.mask = q.value →
    r = q) ∧
  (∀ (w : CmdWord) (i : Instr), decode w = .ok i →
    ((opc w).getLsbD 3 = true ↔ i.row.mnemonic ∈ ["PADD", "PNEG", "PMUL", "PORD"]))

/-- R65, R69, R163: which words are no command, by which defect and in which order of looking, that executing one raises
`ILLEGAL`, code `0x3` with `RESULT = 0x00`, with nothing else changed, and that PADD and PMUL words are never refused. Which status a doubly wrong word gets is decision D19. -/
def Obligations.ReservedWordsRaiseIllegal : Prop :=
  ∀ (w : CmdWord) (s : State),
    (decode w = .error .reservedOpcode ↔ opc w ∈ reservedOpcodes) ∧
    (decode w = .error .reservedOperandBits ↔ opc w ∉ reservedOpcodes ∧ w &&& mustBeZero (opc w) ≠ 0) ∧
    (opc w ∈ reservedOpcodes ∨ w &&& mustBeZero (opc w) ≠ 0 → runCommand w s = .next (answered 0x300 s)) ∧
    (opc w = 0x8 ∨ opc w = 0xA → ∃ i, decode w = .ok i)

/-- A word of each of the six formats written out from R61, R67 and R76, both commands of format P1 among them, and two words
that are no command. -/
def Obligations.WrittenOutWordsDecode : Prop :=
  decode 0b0001_1111_1111_0000_0000 = .ok (.fdeg 255) ∧
  decode 0b0010_0000_1100_0000_1010 = .ok (.fadd 12 10) ∧
  decode 0b0101_0000_0010_0000_0000 = .ok (.finv 2) ∧
  decode 0b1000_1100_0101_1000_1101 = .ok (.padd ⟨12, 5⟩ ⟨8, 13⟩) ∧
  decode 0b1001_1100_0101_0000_0000 = .ok (.pneg ⟨12, 5⟩) ∧
  decode 0b1010_1100_0101_1111_1111 = .ok (.pmul ⟨12, 5⟩ 255) ∧
  decode 0b1011_1100_0101_0000_0000 = .ok (.pord ⟨12, 5⟩) ∧
  decode 0b0000_0000_0000_0000_0000 = .error .reservedOpcode ∧
  decode 0b0010_0000_0000_0001_0000 = .error .reservedOperandBits

/-- The words of R76's table; that a line, a pseudo-instruction's too, is refused exactly when an element is above 15, a wide operand
or scalar above 255, or a raw word above 20 bits (so the scalar 0 is accepted); that `AsmLine.wf` says just that; and R76's
example from its text (spelling: log 12). -/
def Obligations.AssemblerWritesTheTableWords : Prop :=
  (∀ w : Wide, assemble (.fdeg w.toNat) = some (0x1#4 ++ w ++ 0x00#8)) ∧
  (∀ a b : Elem, assemble (.fadd a.toNat b.toNat) = some (0x2#4 ++ 0x0#4 ++ a ++ 0x0#4 ++ b)) ∧
  (∀ a b : Elem, assemble (.fmul a.toNat b.toNat) = some (0x3#4 ++ 0x0#4 ++ a ++ 0x0#4 ++ b)) ∧
  (∀ w : Wide, assemble (.fred w.toNat) = some (0x4#4 ++ w ++ 0x00#8)) ∧
  (∀ a : Elem, assemble (.finv a.toNat) = some (0x5#4 ++ 0x0#4 ++ a ++ 0x00#8)) ∧
  (∀ a b : Elem, assemble (.fdiv a.toNat b.toNat) = some (0x6#4 ++ 0x0#4 ++ a ++ 0x0#4 ++ b)) ∧
  (∀ r1 s1 r2 s2 : Elem, assemble (.padd (r1.toNat, s1.toNat) (r2.toNat, s2.toNat)) =
    some (0x8#4 ++ r1 ++ s1 ++ r2 ++ s2)) ∧
  (∀ u v : Elem, assemble (.pneg (u.toNat, v.toNat)) = some (0x9#4 ++ u ++ v ++ 0x00#8)) ∧
  (∀ (u v : Elem) (c : Scalar), assemble (.pmul (u.toNat, v.toNat) c.toNat) = some (0xA#4 ++ u ++ v ++ c)) ∧
  (∀ u v : Elem, assemble (.pord (u.toNat, v.toNat)) = some (0xB#4 ++ u ++ v ++ 0x00#8)) ∧
  (∀ w : CmdWord, assemble (.word w.toNat) = some w) ∧
  (∀ w : Nat, (assemble (.fdeg w) = none ↔ 255 < w) ∧ (assemble (.fred w) = none ↔ 255 < w)) ∧
  (∀ a b : Nat, (assemble (.fadd a b) = none ↔ 15 < a ∨ 15 < b) ∧ (assemble (.fmul a b) = none ↔ 15 < a ∨ 15 < b) ∧
    (assemble (.fdiv a b) = none ↔ 15 < a ∨ 15 < b) ∧ (assemble (.fsub a b) = none ↔ 15 < a ∨ 15 < b)) ∧
  (∀ a : Nat, (assemble (.finv a) = none ↔ 15 < a) ∧ (assemble (.fsqr a) = none ↔ 15 < a)) ∧
  (∀ r1 s1 r2 s2 : Nat, assemble (.padd (r1, s1) (r2, s2)) = none ↔ 15 < r1 ∨ 15 < s1 ∨ 15 < r2 ∨ 15 < s2) ∧
  (∀ u v : Nat, (assemble (.pneg (u, v)) = none ↔ 15 < u ∨ 15 < v) ∧ (assemble (.pord (u, v)) = none ↔ 15 < u ∨ 15 < v) ∧
    (assemble (.pdbl (u, v)) = none ↔ 15 < u ∨ 15 < v)) ∧
  (∀ u v c : Nat, assemble (.pmul (u, v) c) = none ↔ 15 < u ∨ 15 < v ∨ 255 < c) ∧
  (∀ w : Nat, assemble (.word w) = none ↔ 2 ^ 20 ≤ w) ∧
  (∀ l : AsmLine, assemble l = none ↔ l.wf = false) ∧
  assembleText "PADD (12, 5), (8, 13)" = some 0x8C58D

/-- R77: each pseudo-instruction assembles to exactly what its expansion assembles to, for every operand, the misfits among
them. -/
def Obligations.PseudoInstructionsAreAliases : Prop :=
  (∀ a b : Nat, assemble (.fsub a b) = assemble (.fadd a b)) ∧
  (∀ a : Nat, assemble (.fsqr a) = assemble (.fmul a a)) ∧
  (∀ p : Nat × Nat, assemble (.pdbl p) = assemble (.padd p p))

/-! ## The step relation -/

/-- A step runs the decoded command (R48): with `w` in `CMDR` and neither a reset nor a pending latency at the next sample, the
step is `exec` of what `w` decodes to, on the state whose sample, if there is one, is taken. That the step executes when no
sample is left is the model's choice (log 7). -/
def Obligations.StepRunsTheDecodedCommand : Prop :=
  ∀ (s : State) (w : CmdWord) (i : Instr), s.phase = .busy w → decode w = .ok i → mayExecute s = true →
    step s = exec i (sampleTaken s)

/-- R73 and the writes of R48: for every `CA` and every one of the 2^20 words the execute step writes into `RSPR` the response
that the function of R73, written out in `responseTo`, gives, and that function gives one everywhere. That every word is
answered rests on decision D10 (R171). That the step executes when no sample is left is the model's choice (log 7). -/
def Obligations.ExecuteStepIsTheExecFunction : Prop :=
  ∀ (s : State) (w : CmdWord), s.phase = .busy w → mayExecute s = true →
    ∃ r, responseTo s.ca w = some r ∧ step s = .next (answered r (sampleTaken s))

/-- R47: an IDLE engine takes the offered word, whatever it is, into `CMDR`; `CA` is unchanged. -/
def Obligations.AcceptTakesEveryWord : Prop :=
  ∀ (s : State) (x : Sample) (rest : List Sample), s.phase = .idle → s.inputs = x :: rest → x.rst = false →
    x.cmdValid = true →
    step s = .next { ca := s.ca, phase := .busy x.cmd, inputs := rest, outputs := s.outputs }

/-- R49: a DONE engine whose host is ready gives out `RSPR` and becomes IDLE, `CA` unchanged; while the host is not ready, or is
quiet, it stays in DONE. -/
def Obligations.DeliverHandsTheResponseOver : Prop :=
  ∀ (s : State) (r : RspWord), s.phase = .done r →
    (∀ x rest, s.inputs = x :: rest → x.rst = false → x.rspReady = true →
      step s = .next { ca := s.ca, phase := .idle, inputs := rest, outputs := s.outputs ++ [r] }) ∧
    (∀ x rest, s.inputs = x :: rest → x.rst = false → x.rspReady = false → step s = .next { s with inputs := rest }) ∧
    (s.inputs = [] → step s = .next s)

/-- R50: in every phase, with `rst` high, `CA <- cfg_a` and `PHASE <- IDLE`; the word in flight is not delivered, whatever else
the pins say. -/
def Obligations.ResetFromEveryPhase : Prop :=
  ∀ (s : State) (x : Sample) (rest : List Sample), s.inputs = x :: rest → x.rst = true →
    step s = .next { ca := x.cfgA, phase := .idle, inputs := rest, outputs := s.outputs }

/-- The output pins as R41 gives them from `PHASE` and `rst`; `rsp` shows `RSPR` exactly while `rsp_valid`, and with `rsp_valid`
low the model gives no value (log 8, the model's reading of "otherwise unspecified"). -/
def Obligations.OutputPinsFollowPhase : Prop :=
  ∀ (s : State) (rst : Bool),
    (s.cmdReady rst = true ↔ s.phase = .idle ∧ rst = false) ∧
    (s.rspValid rst = true ↔ (∃ r, s.phase = .done r) ∧ rst = false) ∧
    (∀ r, s.rspPin rst = some r ↔ s.phase = .done r ∧ rst = false)

/-- The command channel of R42: a step takes a word into the engine exactly when `cmd_valid` and `cmd_ready` are both high at its
sample, and the word is the one on `cmd` there. -/
def Obligations.CommandTransferIsValidAndReady : Prop :=
  ∀ (s t : State) (x : Sample) (rest : List Sample), s.inputs = x :: rest → step s = .next t →
    ((s.phase = .idle ∧ t.phase ≠ .idle) ↔ (x.cmdValid = true ∧ s.cmdReady x.rst = true)) ∧
    (x.cmdValid = true → s.cmdReady x.rst = true → t.phase = .busy x.cmd)

/-- The response channel of R43: a step gives a word out exactly when `rsp_valid` and `rsp_ready` are both high at its sample, the
word is the one on `rsp`, and `PHASE` becomes IDLE; otherwise the host's record is unchanged, and a DONE engine that is not
reset keeps its response. -/
def Obligations.ResponseTransferIsValidAndReady : Prop :=
  ∀ (s t : State) (x : Sample) (rest : List Sample), s.inputs = x :: rest → step s = .next t →
    (x.rspReady = true → s.rspValid x.rst = true →
      ∃ r, s.rspPin x.rst = some r ∧ t.outputs = s.outputs ++ [r] ∧ t.phase = .idle) ∧
    (¬ (x.rspReady = true ∧ s.rspValid x.rst = true) →
      t.outputs = s.outputs ∧ (∀ r, s.phase = .done r → x.rst = false → t.phase = .done r))

/-- R25: the only transitions of `PHASE`. -/
def Obligations.OnlyTheFourPhaseTransitions : Prop :=
  ∀ s t : State, step s = .next t →
    t.phase = s.phase ∨
    (s.phase = .idle ∧ ∃ w, t.phase = .busy w) ∨
    ((∃ w, s.phase = .busy w) ∧ ∃ r, t.phase = .done r) ∨
    ((∃ r, s.phase = .done r) ∧ t.phase = .idle) ∨
    (t.phase = .idle ∧ ∃ x rest, s.inputs = x :: rest ∧ x.rst = true)

/-- R191, R202: with `rst` high `CA` takes `cfg_a`; with `rst` low, or a quiet host, no step writes it, and `cfg_a` is not looked
at. -/
def Obligations.CoefficientWrittenOnlyByReset : Prop :=
  (∀ (s t : State) (x : Sample) (rest : List Sample), s.inputs = x :: rest → step s = .next t →
    t.ca = if x.rst then x.cfgA else s.ca) ∧
  (∀ s t : State, s.inputs = [] → step s = .next t → t.ca = s.ca) ∧
  (∀ (s : State) (x : Sample) (rest : List Sample) (a : Elem), s.inputs = x :: rest → x.rst = false →
    step s = step { s with inputs := { x with cfgA := a } :: rest })

/-- "PNEG and all field commands do not read it" (R24): their response does not change with `CA`. That FINV and FDIV answer a zero
divisor at all rests on decision D10 (R171). -/
def Obligations.FieldCommandsIgnoreTheCoefficient : Prop :=
  ∀ (i : Instr) (s : State) (a : Elem), ignoresCoefficient i = true →
    ∃ r, exec i s = .next (answered r s) ∧ exec i { s with ca := a } = .next (answered r { s with ca := a })

/-- "`exec` is total and the engine has no hang" (R174, the spec's own inference): a step from any state, reachable or not,
answers a next state. It rests on decision D10 (a zero divisor is answered, not looped on) and says that the model's fuel
(log 6) never gives out. -/
def Obligations.EveryStepAnswers : Prop :=
  (∀ s : State, ∃ t, step s = .next t) ∧ (∀ (i : Instr) (s : State), ∃ t, exec i s = .next t)

/-- R51 (3): two engines with the same `CA` answer the same word with the same response, whatever else their states hold. That
every word is answered rests on decision D10 (R171). -/
def Obligations.ResponseDependsOnCoefficientAndWord : Prop :=
  ∀ (s t : State) (w : CmdWord), s.ca = t.ca →
    ∃ r, runCommand w s = .next (answered r s) ∧ runCommand w t = .next (answered r t)

/-- R51 (1), (2) over every host behaviour: from an IDLE engine, without a reset the responses delivered in any number of steps,
followed by the one still owed, are the responses to the accepted commands in the order of acceptance; with resets among the
samples the delivered ones are still a subsequence of them. -/
def Obligations.ResponsesFollowAcceptanceOrder : Prop :=
  ∀ (k : Nat) (s t : State), s.phase = .idle → Sys2Proof.core.run k s = .next t →
    ∃ new : List RspWord, t.outputs = s.outputs ++ new ∧
      ((∀ x ∈ s.inputs, x.rst = false) →
        new.map some ++ owed t = (acceptedIn k s).map fun c => responseTo c.1 c.2) ∧
      (new.map some).Sublist ((acceptedIn k s).map fun c => responseTo c.1 c.2)

/-- R51 (1), (2) as what every step keeps, from any state: without a reset at its sample, what a step delivers followed by what the
engine then owes is what it owed followed by the response to what the step accepts, so no response is lost, made up, changed or
overtaken; with a reset nothing is delivered and nothing is owed (R193). The response is the one of R73. -/
def Obligations.StepKeepsAnswersInOrder : Prop :=
  ∀ s t : State, step s = .next t →
    ((∀ x rest, s.inputs = x :: rest → x.rst = false) →
      ∃ new : List RspWord, t.outputs = s.outputs ++ new ∧
        new.map some ++ owed t = owed s ++ (accepting s).map fun c => responseTo c.1 c.2) ∧
    (∀ x rest, s.inputs = x :: rest → x.rst = true → t.outputs = s.outputs ∧ owed t = [] ∧ accepting s = [])

/-- The weak fairness of R48 in the model: unless it is reset, a BUSY engine has executed its command after at most one step more
than the samples to come, with the response of R73. That every command is answered rests on decision D10 (R171). That the
last of those steps executes under a quiet host is the model's choice (log 7). -/
def Obligations.BusyEngineExecutes : Prop :=
  ∀ (s : State) (w : CmdWord), s.phase = .busy w → (∀ x ∈ s.inputs, x.rst = false) →
    ∃ (k : Nat) (t : State) (r : RspWord), k ≤ s.inputs.length + 1 ∧ Sys2Proof.core.run k s = .next t ∧
      t.phase = .done r ∧ responseTo s.ca w = some r

/-- A run is over (R56) only in IDLE with no offer to come, and from then on, unless it is reset, a step changes nothing but the
samples to come; the samples of a run that is over leave it over. -/
def Obligations.FinishedRunStaysFinished : Prop :=
  ∀ s : State, runOver s = true →
    ∃ t, step s = .next t ∧ runOver t = true ∧ t.outputs = s.outputs ∧
      ((∀ x ∈ s.inputs, x.rst = false) → t.ca = s.ca)

/-- Codes `0x4` to `0xF` are never produced (R72) and an error's `RESULT` is `0x00` (R164, decision D16): an invariant of `RSPR` that every step
keeps, from every state that has it. -/
def Obligations.StepKeepsResponseSound : Prop :=
  ∀ s t : State, responseSound s = true → step s = .next t → responseSound t = true

/-- The reset state has that invariant. -/
def Obligations.ResetResponseSound : Prop := responseSound State.reset = true

/-- R192: after a reset `CA` is the strapped value, `PHASE` is IDLE, `cmd_ready` is high and `rsp_valid` low with `rst` low, and
the engine executes nothing until the host offers a command: a sample with `rst` and `cmd_valid` low, whatever else it says, and
a host with no sample to come, leave `CA`, `PHASE` and what was delivered as they are. The model's `State.reset` is that state for one strap value, which
is the model's choice (log 2) and not said here. -/
def Obligations.StateAfterReset : Prop :=
  (∀ a0 : Elem, (State.afterReset a0).ca = a0 ∧ (State.afterReset a0).phase = .idle ∧
    (State.afterReset a0).cmdReady false = true ∧ (State.afterReset a0).rspValid false = false ∧
    step (State.afterReset a0) = .next (State.afterReset a0) ∧
    ∀ (x : Sample) (rest : List Sample), x.rst = false → x.cmdValid = false →
      step { State.afterReset a0 with inputs := x :: rest } = .next { State.afterReset a0 with inputs := rest }) ∧
  (∃ a0, State.reset = State.afterReset a0)

/-! ## Commands in general -/

/-- The frame of all ten commands: a command that answers has changed `RSPR` and `PHASE` and nothing else, `CA` and the host's
side among what is unchanged (R22, R24, R48). -/
def Obligations.CommandsWriteOnlyTheResponse : Prop :=
  ∀ (i : Instr) (s t : State), exec i s = .next t → ∃ r, t = answered r s

/-- R164: raising a status writes `{code, 0x00}` into `RSPR` and DONE into `PHASE`, and changes nothing else. That `RESULT` is 0x00
is decision D16, and it is no value. -/
def Obligations.ErrorChangesOnlyTheResponse : Prop :=
  ∀ s : State,
    respond (raise .div0) s = .next (answered (0x1#4 ++ 0x00#8) s) ∧
    respond (raise .badScalar) s = .next (answered (0x2#4 ++ 0x00#8) s) ∧
    respond (raise .illegal) s = .next (answered (0x3#4 ++ 0x00#8) s)

/-- Which statuses a word can be answered with, by its opcode; every word is answered with one of them, and an error records
nothing, `RESULT = 0x00` (decision D16). That every word is answered rests on decision D10 (R171). That PMUL and PORD never answer
`DIV0` is the spec's own inference (41_curve.md section 5). -/
def Obligations.StatusesByCommand : Prop :=
  ∀ (w : CmdWord) (s : State), ∃ r, runCommand w s = .next (answered r s) ∧ rspStatus r ∈ statusesOf (opc w) ∧
    (rspStatus r ≠ 0x0 → rspResult r = 0x00)

/-! ## Field commands -/

/-- R102. -/
def Obligations.FdegCommand : Prop :=
  (∀ w : Wide, decode (0x1#4 ++ w ++ 0x00#8) = .ok (.fdeg w)) ∧
  (∀ (a b : Byte) (s : State), b ≠ 0 → runCommand (0x1#4 ++ a ++ b) s = .next (answered 0x300 s)) ∧
  (∀ (w : Wide) (s : State), ∃ d : Int, (w = 0 → d = -1) ∧
    (w ≠ 0 → 0 ≤ d ∧ 2 ^ d.toNat ≤ w.toNat ∧ w.toNat < 2 ^ (d.toNat + 1)) ∧
    exec (.fdeg w) s = .next (answered (0x0#4 ++ BitVec.ofInt 8 d) s))

/-- R104. -/
def Obligations.FaddCommand : Prop :=
  (∀ a b : Elem, decode (0x2#4 ++ 0x0#4 ++ a ++ 0x0#4 ++ b) = .ok (.fadd a b)) ∧
  (∀ (h a k b : Elem) (s : State), h ≠ 0 ∨ k ≠ 0 →
    runCommand (0x2#4 ++ h ++ a ++ k ++ b) s = .next (answered 0x300 s)) ∧
  (∀ (a b : Elem) (s : State), exec (.fadd a b) s = .next (answered (0x0#4 ++ 0x0#4 ++ (a ^^^ b)) s))

/-- R106. -/
def Obligations.FmulCommand : Prop :=
  (∀ a b : Elem, decode (0x3#4 ++ 0x0#4 ++ a ++ 0x0#4 ++ b) = .ok (.fmul a b)) ∧
  (∀ (h a k b : Elem) (s : State), h ≠ 0 ∨ k ≠ 0 →
    runCommand (0x3#4 ++ h ++ a ++ k ++ b) s = .next (answered 0x300 s)) ∧
  (∀ (a b : Elem) (s : State), exec (.fmul a b) s = .next (answered (0x0#4 ++ 0x0#4 ++ gfMul a b) s)) ∧
  gfMul 2 2 = 4 ∧ gfMul 8 2 = 3

/-- R108: the result is the remainder of the operand by x^4 + x + 1, the element `r` for which the operand is a carry-less
multiple of `MINPOL` plus `r`. -/
def Obligations.FredCommand : Prop :=
  (∀ w : Wide, decode (0x4#4 ++ w ++ 0x00#8) = .ok (.fred w)) ∧
  (∀ (a b : Byte) (s : State), b ≠ 0 → runCommand (0x4#4 ++ a ++ b) s = .next (answered 0x300 s)) ∧
  (∀ (w : Wide) (s : State), ∃ (q : Nat) (r : Elem), q < 16 ∧ w.toNat = clmul 19 q ^^^ r.toNat ∧ gfRed w.toNat = .ok r ∧
    exec (.fred w) s = .next (answered (0x0#4 ++ 0x0#4 ++ r) s))

/-- R111: the inverse of a nonzero operand, the element whose product with it is 1; `DIV0` for 0 (decision D10). -/
def Obligations.FinvCommand : Prop :=
  (∀ a : Elem, decode (0x5#4 ++ 0x0#4 ++ a ++ 0x00#8) = .ok (.finv a)) ∧
  (∀ (h a : Elem) (b : Byte) (s : State), h ≠ 0 ∨ b ≠ 0 →
    runCommand (0x5#4 ++ h ++ a ++ b) s = .next (answered 0x300 s)) ∧
  (∀ s : State, exec (.finv 0) s = .next (answered 0x100 s)) ∧
  (∀ (a : Elem) (s : State), a ≠ 0 → ∃ r : Elem, gfMul a r = 1 ∧ gfInv a = .ok r ∧
    exec (.finv a) s = .next (answered (0x0#4 ++ 0x0#4 ++ r) s)) ∧
  (∀ a r : Elem, gfInv a = .ok r → gfInv r = .ok a)

/-- R113: the quotient by a nonzero divisor, the element whose product with the divisor is the dividend; `DIV0` for the divisor 0,
whatever the dividend (decision D10). -/
def Obligations.FdivCommand : Prop :=
  (∀ a b : Elem, decode (0x6#4 ++ 0x0#4 ++ a ++ 0x0#4 ++ b) = .ok (.fdiv a b)) ∧
  (∀ (h a k b : Elem) (s : State), h ≠ 0 ∨ k ≠ 0 →
    runCommand (0x6#4 ++ h ++ a ++ k ++ b) s = .next (answered 0x300 s)) ∧
  (∀ (a : Elem) (s : State), exec (.fdiv a 0) s = .next (answered 0x100 s)) ∧
  (∀ (a b : Elem) (s : State), b ≠ 0 → ∃ q : Elem, gfMul q b = a ∧ gfDiv a b = .ok q ∧
    exec (.fdiv a b) s = .next (answered (0x0#4 ++ 0x0#4 ++ q) s))

/-! ## Field laws -/

/-- R114. -/
def Obligations.AdditionLaws : Prop :=
  ∀ a b c : Elem, gfAdd a b = gfAdd b a ∧ gfAdd (gfAdd a b) c = gfAdd a (gfAdd b c) ∧ gfAdd a a = 0 ∧ gfAdd a 0 = a

/-- R115. -/
def Obligations.MultiplicationLaws : Prop :=
  ∀ a b c : Elem, gfMul a b = gfMul b a ∧ gfMul (gfMul a b) c = gfMul a (gfMul b c) ∧
    gfMul a (gfAdd b c) = gfAdd (gfMul a b) (gfMul a c) ∧ gfMul a 1 = a ∧ gfMul a 0 = 0

/-- The spec's own evaluation, "The multiplication table of `gf_mul`" (40_field.md section 7). -/
def Obligations.MultiplicationTable : Prop :=
  ∀ a b : Elem, ((mulTable.getD a.toNat []).getD b.toNat 99) = (gfMul a b).toNat

/-- The spec's own evaluation, "The inverse, square and power tables" (40_field.md section 7), the inverses; and that they are the
14th powers. -/
def Obligations.InverseTable : Prop :=
  ∀ a : Elem, a ≠ 0 → ∃ r : Elem, gfInv a = .ok r ∧ inverseTable.getD (a.toNat - 1) 99 = r.toNat ∧
    (List.replicate 14 a).foldl gfMul 1 = r

/-- The spec's own inference `gf_mul(a, b) == gf_red(clmul(a, b))` (40_field.md section 7). -/
def Obligations.ProductIsReducedCarrylessProduct : Prop :=
  ∀ a b : Elem, gfRed (clmul a.toNat b.toNat) = .ok (gfMul a b)

/-- The spec's own inference "`gf_red({h, l}) = l ^ gf_mul(h, 3)`" (40_field.md section 4). -/
def Obligations.ReductionClosedForm : Prop :=
  ∀ h l : Elem, gfRed (h.toNat * 16 + l.toNat) = .ok (l ^^^ gfMul h 3)

/-- Conflict C1 (90_conflicts.md): the inverter's masks and the polynomial remainder cannot be told apart. -/
def Obligations.InverterMaskIsTheRemainder : Prop :=
  ∀ a : Elem, a ≠ 0 → reducingInvLoop 6 a.toNat Config.minpol 1 0 (deg a.toNat - 4) = gfInv a

/-! ## Curve commands -/

/-- R131, its five cases in order, each slope given by the multiplication that defines the quotient; the last clause is the
`DIV0` of case 5. -/
def Obligations.PointAdditionCases : Prop :=
  ∀ (ca : Elem) (p q : Point),
    (p = Point.identity → ptAdd ca p q = .ok q) ∧
    (p ≠ Point.identity → q = Point.identity → ptAdd ca p q = .ok p) ∧
    (p ≠ Point.identity → q ≠ Point.identity → p.u = q.u → p.v ^^^ q.v = p.u → ptAdd ca p q = .ok Point.identity) ∧
    (p = q → p.u ≠ 0 → ∃ k m u v : Elem, gfMul k p.u = p.v ∧ m = p.u ^^^ k ∧ u = gfMul m m ^^^ m ^^^ ca ∧
      v = gfMul m p.u ^^^ gfMul m u ^^^ u ^^^ p.v ∧ ptAdd ca p q = .ok ⟨u, v⟩) ∧
    (p ≠ Point.identity → q ≠ Point.identity → p.u ≠ q.u →
      ∃ m u v : Elem, gfMul m (q.u ^^^ p.u) = q.v ^^^ p.v ∧ u = gfMul m m ^^^ m ^^^ ca ^^^ p.u ^^^ q.u ∧
        v = gfMul m (u ^^^ p.u) ^^^ u ^^^ p.v ∧ ptAdd ca p q = .ok ⟨u, v⟩) ∧
    (p ≠ Point.identity → q ≠ Point.identity → p.u = q.u → p ≠ q → p.v ^^^ q.v ≠ p.u →
      ptAdd ca p q = .error (.raised .div0))

/-- PADD: every word with `OPC = 0x8` is a PADD; off the zero-divisor condition it answers the sum, the pair of
coordinates as `RESULT`, and under it `DIV0` (decision D10). That the condition is exact is the spec's own inference (41_curve.md section 5). -/
def Obligations.PaddCommand : Prop :=
  (∀ r1 s1 r2 s2 : Elem, decode (0x8#4 ++ r1 ++ s1 ++ r2 ++ s2) = .ok (.padd ⟨r1, s1⟩ ⟨r2, s2⟩)) ∧
  (∀ (p q : Point) (s : State), meetsZeroDivisor p q = false →
    ∃ t : Point, ptAdd s.ca p q = .ok t ∧ exec (.padd p q) s = .next (answered (0x0#4 ++ t.u ++ t.v) s)) ∧
  (∀ (p q : Point) (s : State), meetsZeroDivisor p q = true → exec (.padd p q) s = .next (answered 0x100 s))

/-- R134. -/
def Obligations.PnegCommand : Prop :=
  (∀ u v : Elem, decode (0x9#4 ++ u ++ v ++ 0x00#8) = .ok (.pneg ⟨u, v⟩)) ∧
  (∀ (u v : Elem) (b : Byte) (s : State), b ≠ 0 → runCommand (0x9#4 ++ u ++ v ++ b) s = .next (answered 0x300 s)) ∧
  (∀ (u v : Elem) (s : State), exec (.pneg ⟨u, v⟩) s = .next (answered (0x0#4 ++ u ++ (u ^^^ v)) s))

/-- R133. -/
def Obligations.NegationIsAnInvolution : Prop :=
  (∀ u v : Elem, ptNeg ⟨u, v⟩ = ⟨u, u ^^^ v⟩) ∧ (∀ p : Point, ptNeg (ptNeg p) = p) ∧
    ptNeg Point.identity = Point.identity

/-- PMUL: every word with `OPC = 0xA` is a PMUL; the scalar 0 is `BAD_SCALAR` whatever the point; every other scalar is
answered with the product, for every `CA` and every point, valid or not; the scalar 1 gives the point back. That it never
raises `DIV0` is the spec's own inference (41_curve.md section 5, "Bounds"). -/
def Obligations.PmulCommand : Prop :=
  (∀ (u v : Elem) (c : Scalar), decode (0xA#4 ++ u ++ v ++ c) = .ok (.pmul ⟨u, v⟩ c)) ∧
  (∀ (p : Point) (s : State), exec (.pmul p 0) s = .next (answered 0x200 s)) ∧
  (∀ (p : Point) (c : Scalar) (s : State), c ≠ 0 →
    ∃ t : Point, ptMul s.ca p c.toNat = .ok t ∧ exec (.pmul p c) s = .next (answered (0x0#4 ++ t.u ++ t.v) s)) ∧
  (∀ (u v : Elem) (s : State), exec (.pmul ⟨u, v⟩ 1) s = .next (answered (0x0#4 ++ u ++ v) s))

/-- The spec's own inference (41_curve.md section 3): double-and-add equals `p` added to itself `c - 1` times, for every `CA`,
every point and every scalar of the command. -/
def Obligations.ScalarProductIsRepeatedAddition : Prop :=
  ∀ (ca : Elem) (p : Point) (c : Scalar), c ≠ 0 →
    ∃ t, copies ca p (c.toNat - 1) = .ok t ∧ ptMul ca p c.toNat = .ok t

/-- PORD: the answer is the least positive number of copies of the point that combine to the identity, from 1 to 24, and
that many times the point is the identity under PMUL's function and no fewer times is. The bound and the termination are the
spec's own inference (41_curve.md section 5); for the identity the answer is 1 (decision D20). -/
def Obligations.PordCommand : Prop :=
  (∀ u v : Elem, decode (0xB#4 ++ u ++ v ++ 0x00#8) = .ok (.pord ⟨u, v⟩)) ∧
  (∀ (u v : Elem) (b : Byte) (s : State), b ≠ 0 → runCommand (0xB#4 ++ u ++ v ++ b) s = .next (answered 0x300 s)) ∧
  (∀ (p : Point) (s : State), ∃ k : Nat, 1 ≤ k ∧ k ≤ 24 ∧ ptMul s.ca p k = .ok Point.identity ∧
    (∀ j, 1 ≤ j → j < k → ptMul s.ca p j ≠ .ok Point.identity) ∧
    exec (.pord p) s = .next (answered (0x0#4 ++ BitVec.ofNat 8 k) s)) ∧
  (∀ s : State, exec (.pord Point.identity) s = .next (answered 0x001 s))

/-! ## The group law -/

/-- The spec's own inference on the zero divisor (41_curve.md section 5): `pt_add` raises `DIV0` exactly under the condition, and
otherwise answers a point; two points of one curve never meet it. -/
def Obligations.AdditionFailsExactlyOnZeroDivisor : Prop :=
  (∀ (ca : Elem) (p q : Point), ptAdd ca p q = .error (.raised .div0) ↔ meetsZeroDivisor p q = true) ∧
  (∀ (ca : Elem) (p q : Point), meetsZeroDivisor p q = false → ∃ t, ptAdd ca p q = .ok t) ∧
  (∀ (ca b : Elem) (p q : Point), valid ca b p = true → valid ca b q = true → meetsZeroDivisor p q = false)

/-- The laws the source states for valid points hold for every point and every `CA` (41_curve.md section 5, the spec's own
evaluation): identity, inverse, one copy, and the round trip through the order, which for the identity is 1 (decision D20). -/
def Obligations.IdentityInverseAndPeriodLaws : Prop :=
  ∀ (ca : Elem) (p : Point),
    ptAdd ca p Point.identity = .ok p ∧ ptAdd ca Point.identity p = .ok p ∧
    ptAdd ca p (ptNeg p) = .ok Point.identity ∧ ptMul ca p 1 = .ok p ∧
    ∃ k, ptOrd ca p = .ok k ∧ ptMul ca p k = .ok Point.identity ∧ ptMul ca p (k + 1) = .ok p

/-- Every non-identity point lies on exactly one curve of the instance's `CA` (41_curve.md head, the spec's own inference). -/
def Obligations.EveryPointLiesOnOneCurve : Prop :=
  ∀ (ca : Elem) (p : Point), p ≠ Point.identity → ∃ b : Elem, onCurve ca b p = true ∧ ∀ c, onCurve ca c p = true → c = b

/-- The spec's own evaluation (41_curve.md section 5): on the valid points of every curve `pt_add` answers a valid point and is
commutative. -/
def Obligations.ValidPointsAreClosedAndCommute : Prop :=
  ∀ (ca b : Elem) (p q : Point), valid ca b p = true → valid ca b q = true →
    ∃ t, ptAdd ca p q = .ok t ∧ valid ca b t = true ∧ ptAdd ca q p = .ok t

/-- The spec's own evaluation (41_curve.md section 5): on the valid points of every curve `pt_add` is associative. -/
def Obligations.ValidPointsAssociate : Prop :=
  ∀ (ca b : Elem) (p q r : Point), valid ca b p = true → valid ca b q = true → valid ca b r = true →
    ∃ x y t, ptAdd ca p q = .ok x ∧ ptAdd ca q r = .ok y ∧ ptAdd ca x r = .ok t ∧ ptAdd ca p y = .ok t

/-- The spec's own inferences (41_curve.md section 5): a point is its own negative exactly when its first coordinate is 0, such a
point doubles to the identity, and no other point does. -/
def Obligations.OnlySelfNegativePointsDoubleToIdentity : Prop :=
  ∀ (ca : Elem) (p : Point), (ptNeg p = p ↔ p.u = 0) ∧ (ptAdd ca p p = .ok Point.identity ↔ p.u = 0)
end

