-- ==== Sys2Proof/Laws/Curve.lean ====
section
/-! SUPPORT. The cases of point addition and the unfolding of the curve unit's loops. -/

namespace Sys2Proof.Machine

@[simp] theorem ptNeg_u (p : Point) : (ptNeg p).u = p.u := rfl
@[simp] theorem ptNeg_v (p : Point) : (ptNeg p).v = p.u ^^^ p.v := rfl

@[simp] theorem ptAdd_identity_left (ca : Elem) (p : Point) : ptAdd ca Point.identity p = .ok p := by
  simp [ptAdd]

@[simp] theorem ptAdd_identity_right (ca : Elem) (p : Point) : ptAdd ca p Point.identity = .ok p := by
  by_cases h : p = Point.identity <;> simp [ptAdd, h]

/-- Case 3 of R131. -/
theorem ptAdd_negatives (ca : Elem) {p q : Point} (hp : p ≠ Point.identity) (hq : q ≠ Point.identity)
    (h : p = ptNeg q ∨ q = ptNeg p) : ptAdd ca p q = .ok Point.identity := by
  simp [ptAdd, hp, hq, h]

/-- Case 4 of R131. -/
theorem ptAdd_double (ca : Elem) {p : Point} (hp : p ≠ Point.identity) (h : p ≠ ptNeg p) :
    ptAdd ca p p = ptDouble ca p := by
  simp [ptAdd, hp, h]

/-- Case 5 of R131. -/
theorem ptAdd_chord (ca : Elem) {p q : Point} (hp : p ≠ Point.identity) (hq : q ≠ Point.identity)
    (h1 : p ≠ ptNeg q) (h2 : q ≠ ptNeg p) (h : p ≠ q) : ptAdd ca p q = ptChord ca p q := by
  simp [ptAdd, hp, hq, h1, h2, h]

@[simp] theorem ptMul_zero (ca : Elem) (p : Point) : ptMul ca p 0 = raise .badScalar := rfl

@[simp] theorem ptMulLoop_zero (ca : Elem) (p q : Point) (c : Nat) : ptMulLoop ca p c 0 q = .ok q := rfl

/-- One pass of the loop of R135 whose additions answer. -/
theorem ptMulLoop_succ (ca : Elem) (p q d n : Point) (c i : Nat) (hd : ptAdd ca q q = .ok d)
    (hn : (if c.testBit i then ptAdd ca d p else .ok d) = .ok n) :
    ptMulLoop ca p c (i + 1) q = ptMulLoop ca p c i n := by
  simp only [ptMulLoop, hd, bind, Except.bind]
  rw [hn]

@[simp] theorem ptOrdLoop_identity (ca : Elem) (p : Point) (fuel count : Nat) :
    ptOrdLoop ca p (fuel + 1) Point.identity count = .ok count := by
  simp [ptOrdLoop]

/-- One pass of the loop of R137 whose addition answers. -/
theorem ptOrdLoop_succ (ca : Elem) (p q n : Point) (fuel count : Nat) (hq : q ≠ Point.identity)
    (hn : ptAdd ca q p = .ok n) : ptOrdLoop ca p (fuel + 1) q count = ptOrdLoop ca p fuel n (count + 1) := by
  simp [ptOrdLoop, hq, hn, bind, Except.bind]

end Sys2Proof.Machine
end

