-- ==== Sys2Proof/Laws/Decode.lean ====
section
/-! SUPPORT. The fields of a packed word, the encoder's words, and the opcode table. -/

namespace Sys2Proof.Machine

/-- A bit of a packed word is a bit of its operand bytes or of its opcode. -/
theorem getLsbD_packCommand (o : BitVec 4) (a b : Byte) (i : Nat) :
    (packCommand o a b).getLsbD i =
      if i < 8 then b.getLsbD i else if i - 8 < 8 then a.getLsbD (i - 8) else o.getLsbD (i - 8 - 8) := by
  have h : (packCommand o a b).getLsbD i = (o ++ a ++ b).getLsbD i := rfl
  rw [h, BitVec.getLsbD_append, BitVec.getLsbD_append]

/-- A bit of a point's byte is a bit of one of its coordinates. -/
theorem getLsbD_pointByte (p : Point) (i : Nat) :
    (pointByte p).getLsbD i = if i < 4 then p.v.getLsbD i else p.u.getLsbD (i - 4) := by
  have h : (pointByte p).getLsbD i = (p.u ++ p.v).getLsbD i := rfl
  rw [h, BitVec.getLsbD_append]

@[simp] theorem opc_packCommand (o : BitVec 4) (a b : Byte) : opc (packCommand o a b) = o := by
  refine BitVec.eq_of_getLsbD_eq fun i hi => ?_
  have h1 : ¬ 16 + i < 8 := by omega
  have h2 : ¬ 16 + i - 8 < 8 := by omega
  have h3 : 16 + i - 8 - 8 = i := by omega
  simp only [opc, BitVec.getLsbD_extractLsb', getLsbD_packCommand, hi, h1, h2, h3, if_false, decide_true, Bool.true_and]

@[simp] theorem byteA_packCommand (o : BitVec 4) (a b : Byte) : byteA (packCommand o a b) = a := by
  refine BitVec.eq_of_getLsbD_eq fun i hi => ?_
  have h1 : ¬ 8 + i < 8 := by omega
  have h2 : 8 + i - 8 = i := by omega
  simp only [byteA, BitVec.getLsbD_extractLsb', getLsbD_packCommand, hi, h1, h2, if_false, if_true, decide_true,
    Bool.true_and]

@[simp] theorem byteB_packCommand (o : BitVec 4) (a b : Byte) : byteB (packCommand o a b) = b := by
  refine BitVec.eq_of_getLsbD_eq fun i hi => ?_
  simp only [byteB, BitVec.getLsbD_extractLsb', getLsbD_packCommand, hi, Nat.zero_add, if_true, decide_true,
    Bool.true_and]

@[simp] theorem lowNibble_elemByte (e : Elem) : lowNibble (elemByte e) = e := by
  revert e; decide

@[simp] theorem highNibble_elemByte (e : Elem) : highNibble (elemByte e) = 0 := by
  revert e; decide

@[simp] theorem lowNibble_pointByte (p : Point) : lowNibble (pointByte p) = p.v := by
  refine BitVec.eq_of_getLsbD_eq fun i hi => ?_
  simp only [lowNibble, BitVec.getLsbD_extractLsb', getLsbD_pointByte, hi, Nat.zero_add, if_true, decide_true,
    Bool.true_and]

@[simp] theorem highNibble_pointByte (p : Point) : highNibble (pointByte p) = p.u := by
  refine BitVec.eq_of_getLsbD_eq fun i hi => ?_
  have h1 : ¬ 4 + i < 4 := by omega
  have h2 : 4 + i - 4 = i := by omega
  simp only [highNibble, BitVec.getLsbD_extractLsb', getLsbD_pointByte, hi, h1, h2, if_false, decide_true, Bool.true_and]

@[simp] theorem pointOfByte_pointByte (p : Point) : pointOfByte (pointByte p) = p := by
  simp [pointOfByte]

/-- A byte is the byte of the point in it (R66: all 256 values are points). -/
@[simp] theorem pointByte_pointOfByte (b : Byte) : pointByte (pointOfByte b) = b := by
  revert b; decide

/-- The result byte of an element is the operand byte of that element (R61, R71). -/
theorem elemResult_eq_elemByte (e : Elem) : elemResult e = elemByte e := by
  revert e; decide

/-- The result byte of a point is its operand byte, so that the host can send a result back (R66). -/
theorem pointResult_eq_pointByte (p : Point) : pointResult p = pointByte p := rfl

/-- A word is its three fields. -/
theorem packCommand_fields (w : CmdWord) : packCommand (opc w) (byteA w) (byteB w) = w := by
  refine BitVec.eq_of_getLsbD_eq fun i hi => ?_
  simp only [getLsbD_packCommand, opc, byteA, byteB, BitVec.getLsbD_extractLsb']
  split
  · simp [*]
  · split
    · rename_i h1 h2
      have h3 : 8 + (i - 8) = i := by omega
      simp [h2, h3]
    · rename_i h1 h2
      have h3 : 16 + (i - 8 - 8) = i := by omega
      have h4 : i - 8 - 8 < 4 := by omega
      simp [h3, h4]

end Sys2Proof.Machine

namespace Sys2Proof

@[simp] theorem readOperands_clear (f : Machine.Format) (w : CmdWord) (i : Instr) (h : f.reservedClear w = true) :
    readOperands f w i = .ok i := by
  simp [readOperands, h]

theorem readOperands_set (f : Machine.Format) (w : CmdWord) (i : Instr) (h : f.reservedClear w = false) :
    readOperands f w i = .error .reservedOperandBits := by
  simp [readOperands, h]

/-- Every operand of an `Instr` fits its field, by its type. -/
theorem instr_wf (i : Instr) : i.wf = true := by
  cases i <;> simp [Instr.wf, fitsPoint, fitsElem, fitsByte] <;> omega

/-- "The ten rows are pairwise disjoint (their `OPC` differ)" (R67): a common word would agree with both values under the
opcode nibble of the masks. -/
theorem opcodeTable_values_differ :
    opcodeTable.Pairwise fun r q => r.value &&& (r.mask &&& q.mask) ≠ q.value &&& (r.mask &&& q.mask) := by
  decide

end Sys2Proof
end

