-- ==== Sys2Proof/Laws/Field.lean ====
section
/-! SUPPORT. The unfolding of the field unit's loops and what division can do. -/

namespace Sys2Proof.Machine

@[simp] theorem bitlen_zero : bitlen 0 = 0 := rfl

theorem bitlen_pos {v : Nat} (h : v ≠ 0) : bitlen v = Nat.log2 v + 1 := by
  simp [bitlen, h]

@[simp] theorem deg_zero : deg 0 = -1 := rfl

theorem deg_pos {v : Nat} (h : v ≠ 0) : deg v = Nat.log2 v := by
  simp [deg, bitlen_pos h]

theorem gfRedLoop_small (fuel : Nat) {v : Nat} (h : v < 16) : gfRedLoop fuel v = .ok (BitVec.ofNat 4 v) := by
  cases fuel <;> simp [gfRedLoop, h]

theorem gfRedLoop_big (fuel : Nat) {v : Nat} (h : 16 ≤ v) :
    gfRedLoop (fuel + 1) v = gfRedLoop fuel (v ^^^ (Config.minpol <<< (deg v - 4).toNat)) := by
  simp [gfRedLoop, h]

@[simp] theorem gfInvLoop_one (fuel mp c1 c2 : Nat) (d : Int) :
    gfInvLoop (fuel + 1) 1 mp c1 c2 d = .ok (BitVec.ofNat 4 c1) := by
  simp [gfInvLoop]

@[simp] theorem gfInv_zero : gfInv 0 = raise .div0 := rfl

@[simp] theorem gfDiv_zero (a : Elem) : gfDiv a 0 = raise .div0 := rfl

/-- Division is what inversion of the divisor is, times the dividend. -/
theorem gfDiv_of_inv {a b i : Elem} (h : gfInv b = .ok i) : gfDiv a b = .ok (gfMul a i) := by
  simp [gfDiv, h, bind, Except.bind, pure, Except.pure]

theorem gfDiv_of_abort {a b : Elem} {x : Abort} (h : gfInv b = .error x) : gfDiv a b = .error x := by
  simp [gfDiv, h, bind, Except.bind]

end Sys2Proof.Machine
end

