-- ==== Sys2Proof/Laws/State.lean ====
section
/-! SUPPORT. Each operation on State, one lemma per field. -/

namespace Sys2Proof.Machine.State

@[simp] theorem accept_ca (w : CmdWord) (s : State) : (s.accept w).ca = s.ca := rfl
@[simp] theorem accept_phase (w : CmdWord) (s : State) : (s.accept w).phase = .busy w := rfl
@[simp] theorem accept_inputs (w : CmdWord) (s : State) : (s.accept w).inputs = s.inputs := rfl
@[simp] theorem accept_outputs (w : CmdWord) (s : State) : (s.accept w).outputs = s.outputs := rfl

@[simp] theorem complete_ca (r : RspWord) (s : State) : (s.complete r).ca = s.ca := rfl
@[simp] theorem complete_phase (r : RspWord) (s : State) : (s.complete r).phase = .done r := rfl
@[simp] theorem complete_inputs (r : RspWord) (s : State) : (s.complete r).inputs = s.inputs := rfl
@[simp] theorem complete_outputs (r : RspWord) (s : State) : (s.complete r).outputs = s.outputs := rfl

@[simp] theorem deliver_ca (r : RspWord) (s : State) : (s.deliver r).ca = s.ca := rfl
@[simp] theorem deliver_phase (r : RspWord) (s : State) : (s.deliver r).phase = .idle := rfl
@[simp] theorem deliver_inputs (r : RspWord) (s : State) : (s.deliver r).inputs = s.inputs := rfl
@[simp] theorem deliver_outputs (r : RspWord) (s : State) : (s.deliver r).outputs = s.outputs ++ [r] := rfl

@[simp] theorem resetTo_ca (a : Elem) (s : State) : (s.resetTo a).ca = a := rfl
@[simp] theorem resetTo_phase (a : Elem) (s : State) : (s.resetTo a).phase = .idle := rfl
@[simp] theorem resetTo_inputs (a : Elem) (s : State) : (s.resetTo a).inputs = s.inputs := rfl
@[simp] theorem resetTo_outputs (a : Elem) (s : State) : (s.resetTo a).outputs = s.outputs := rfl

@[simp] theorem raiseStatus_ca (e : ErrorStatus) (s : State) : (s.raiseStatus e).ca = s.ca := rfl
@[simp] theorem raiseStatus_phase (e : ErrorStatus) (s : State) : (s.raiseStatus e).phase = .done (errorResponse e) := rfl
@[simp] theorem raiseStatus_inputs (e : ErrorStatus) (s : State) : (s.raiseStatus e).inputs = s.inputs := rfl
@[simp] theorem raiseStatus_outputs (e : ErrorStatus) (s : State) : (s.raiseStatus e).outputs = s.outputs := rfl

@[simp] theorem placeCommand_ca (w : CmdWord) (s : State) : (s.placeCommand w).ca = s.ca := rfl
@[simp] theorem placeCommand_phase (w : CmdWord) (s : State) : (s.placeCommand w).phase = .busy w := rfl
@[simp] theorem placeCommand_outputs (w : CmdWord) (s : State) : (s.placeCommand w).outputs = s.outputs := rfl

end Sys2Proof.Machine.State
end

