-- ==== Sys2Proof/Laws/Ops.lean ====
section
/-! SUPPORT. What the shared operations can do, said once: the end of a command, the response word, the pins. -/

namespace Sys2Proof.Machine

@[simp] theorem respond_ok (b : Byte) (s : State) : respond (.ok b) s = .next (s.complete (okResponse b)) := rfl

@[simp] theorem respond_raised (e : ErrorStatus) (s : State) :
    respond (.error (.raised e)) s = .next (s.raiseStatus e) := rfl

@[simp] theorem respond_raise (e : ErrorStatus) (s : State) : respond (raise e) s = .next (s.raiseStatus e) := rfl

@[simp] theorem respond_outOfFuel (s : State) : respond (.error .outOfFuel) s = .fault .fuelExhausted := rfl

/-- Everything a command's end can be. -/
theorem respond_cases (c : Calc Byte) (s : State) :
    (∃ b, c = .ok b ∧ respond c s = .next (s.complete (okResponse b))) ∨
    (∃ e, c = .error (.raised e) ∧ respond c s = .next (s.raiseStatus e)) ∨
    (c = .error .outOfFuel ∧ respond c s = .fault .fuelExhausted) := by
  match c with
  | .ok b => exact .inl ⟨b, rfl, rfl⟩
  | .error (.raised e) => exact .inr (.inl ⟨e, rfl, rfl⟩)
  | .error .outOfFuel => exact .inr (.inr ⟨rfl, rfl⟩)

/-- A command that answers has written `RSPR` and `PHASE` and nothing else. -/
theorem respond_next {c : Calc Byte} {s t : State} (h : respond c s = .next t) : ∃ r, t = s.complete r := by
  obtain ⟨b, -, e⟩ | ⟨x, -, e⟩ | ⟨-, e⟩ := respond_cases c s
  · exact ⟨okResponse b, by rw [e] at h; cases h; rfl⟩
  · exact ⟨errorResponse x, by rw [e] at h; cases h; rfl⟩
  · rw [e] at h; cases h

/-- A bit of a response is a bit of `RESULT` or of `STATUS` (R70). -/
theorem getLsbD_packResponse (st : Status) (b : Byte) (i : Nat) :
    (packResponse st b).getLsbD i = if i < 8 then b.getLsbD i else st.code.getLsbD (i - 8) := by
  have h : (packResponse st b).getLsbD i = (st.code ++ b).getLsbD i := rfl
  rw [h, BitVec.getLsbD_append]

@[simp] theorem rspStatus_packResponse (st : Status) (b : Byte) : rspStatus (packResponse st b) = st.code := by
  refine BitVec.eq_of_getLsbD_eq fun i hi => ?_
  have h1 : ¬ 8 + i < 8 := by omega
  have h2 : 8 + i - 8 = i := by omega
  simp only [rspStatus, BitVec.getLsbD_extractLsb', getLsbD_packResponse, hi, h1, h2, if_false, decide_true, Bool.true_and]

@[simp] theorem rspResult_packResponse (st : Status) (b : Byte) : rspResult (packResponse st b) = b := by
  refine BitVec.eq_of_getLsbD_eq fun i hi => ?_
  simp only [rspResult, BitVec.getLsbD_extractLsb', getLsbD_packResponse, hi, Nat.zero_add, if_true, decide_true,
    Bool.true_and]

@[simp] theorem ofCode_code (st : Status) : Status.ofCode st.code = some st := by
  rcases st with _ | e
  · rfl
  · cases e <;> rfl

theorem code_injective {a b : Status} (h : a.code = b.code) : a = b := by
  have := congrArg Status.ofCode h
  simpa using this

theorem cmdReady_iff (rst : Bool) (s : State) : s.cmdReady rst = true ↔ s.phase = .idle ∧ rst = false := by
  simp [State.cmdReady]

theorem rspValid_iff (rst : Bool) (s : State) :
    s.rspValid rst = true ↔ (∃ r, s.phase = .done r) ∧ rst = false := by
  unfold State.rspValid
  split <;> simp_all

/-- The response pin shows a word exactly while `rsp_valid`, and then `RSPR`. -/
theorem rspPin_eq_some (rst : Bool) (s : State) (r : RspWord) :
    s.rspPin rst = some r ↔ s.phase = .done r ∧ rst = false := by
  unfold State.rspPin
  cases rst <;> cases h : s.phase <;> simp

end Sys2Proof.Machine
end

