-- ==== Sys2Proof/Laws/Dispatch.lean ====
section
/-! SUPPORT. Every command is the end of one computation from `CA` and its operands. -/

namespace Sys2Proof.Machine

/-- The computation of a command's `RESULT` (R48: from `CA` and the command alone). -/
def resultOfInstr (ca : Elem) : Instr → Calc Byte
  | .fdeg w => .ok (degreeResult (deg w.toNat))
  | .fadd a b => .ok (elemResult (gfAdd a b))
  | .fmul a b => .ok (elemResult (gfMul a b))
  | .fred w => elemResult <$> gfRed w.toNat
  | .finv a => elemResult <$> gfInv a
  | .fdiv a b => elemResult <$> gfDiv a b
  | .padd p q => pointResult <$> ptAdd ca p q
  | .pneg p => .ok (pointResult (ptNeg p))
  | .pmul p c => pointResult <$> ptMul ca p c.toNat
  | .pord p => countResult <$> ptOrd ca p

theorem exec_eq_respond (i : Instr) (s : State) : exec i s = respond (resultOfInstr s.ca i) s := by
  cases i <;> rfl

end Sys2Proof.Machine
end

