-- ==== Sys2Proof/Laws/PerInstr.lean ====
section
/-! SUPPORT. Families of statements about the instruction as syntax, one lemma per constructor. -/

namespace Sys2Proof.Laws.OpcodeRow
open Sys2Proof Sys2Proof.Machine

/-- The encoder's word is a word of the command's own row of the opcode table (R67). -/
def Statement (i : Instr) : Prop := i.row ∈ opcodeTable ∧ i.row.covers (encode i) = true

/-- The word of a packed command under a mask that keeps the opcode nibble and some operand bits. -/
theorem packCommand_and (o x : BitVec 4) (a b ma mb : Byte) :
    packCommand o a b &&& packCommand x ma mb = packCommand (o &&& x) (a &&& ma) (b &&& mb) := by
  refine BitVec.eq_of_getLsbD_eq fun i hi => ?_
  simp only [BitVec.getLsbD_and, getLsbD_packCommand]
  split
  · rfl
  · split <;> rfl

/-- A row of the table is the row of any command with its opcode. -/
theorem mem_table (i : Instr) : i.row ∈ opcodeTable := by
  cases i <;> simp [opcodeTable, Instr.row]

theorem elemByte_and (e : Elem) : elemByte e &&& 0xF0 = 0 := by
  revert e; decide

theorem fdeg (w : Wide) : Statement (.fdeg w) :=
  ⟨mem_table _, by
    have h := packCommand_and 0x1 0xF w 0x00 0x00 0xFF
    simp only [Row.covers, Instr.row, encode, beq_iff_eq]
    exact h.trans (by simp; decide)⟩

theorem fadd (a b : Elem) : Statement (.fadd a b) :=
  ⟨mem_table _, by
    have h := packCommand_and 0x2 0xF (elemByte a) (elemByte b) 0xF0 0xF0
    rw [elemByte_and, elemByte_and] at h
    simp only [Row.covers, Instr.row, encode, beq_iff_eq]
    exact h.trans (by decide)⟩

theorem fmul (a b : Elem) : Statement (.fmul a b) :=
  ⟨mem_table _, by
    have h := packCommand_and 0x3 0xF (elemByte a) (elemByte b) 0xF0 0xF0
    rw [elemByte_and, elemByte_and] at h
    simp only [Row.covers, Instr.row, encode, beq_iff_eq]
    exact h.trans (by decide)⟩

theorem fred (w : Wide) : Statement (.fred w) :=
  ⟨mem_table _, by
    have h := packCommand_and 0x4 0xF w 0x00 0x00 0xFF
    simp only [Row.covers, Instr.row, encode, beq_iff_eq]
    exact h.trans (by simp; decide)⟩

theorem finv (a : Elem) : Statement (.finv a) :=
  ⟨mem_table _, by
    have h := packCommand_and 0x5 0xF (elemByte a) 0x00 0xF0 0xFF
    rw [elemByte_and] at h
    simp only [Row.covers, Instr.row, encode, beq_iff_eq]
    exact h.trans (by decide)⟩

theorem fdiv (a b : Elem) : Statement (.fdiv a b) :=
  ⟨mem_table _, by
    have h := packCommand_and 0x6 0xF (elemByte a) (elemByte b) 0xF0 0xF0
    rw [elemByte_and, elemByte_and] at h
    simp only [Row.covers, Instr.row, encode, beq_iff_eq]
    exact h.trans (by decide)⟩

theorem padd (p1 p2 : Point) : Statement (.padd p1 p2) :=
  ⟨mem_table _, by
    have h := packCommand_and 0x8 0xF (pointByte p1) (pointByte p2) 0x00 0x00
    simp only [Row.covers, Instr.row, encode, beq_iff_eq]
    exact h.trans (by simp; decide)⟩

theorem pneg (p : Point) : Statement (.pneg p) :=
  ⟨mem_table _, by
    have h := packCommand_and 0x9 0xF (pointByte p) 0x00 0x00 0xFF
    simp only [Row.covers, Instr.row, encode, beq_iff_eq]
    exact h.trans (by simp; decide)⟩

theorem pmul (p : Point) (c : Scalar) : Statement (.pmul p c) :=
  ⟨mem_table _, by
    have h := packCommand_and 0xA 0xF (pointByte p) c 0x00 0x00
    simp only [Row.covers, Instr.row, encode, beq_iff_eq]
    exact h.trans (by simp; decide)⟩

theorem pord (p : Point) : Statement (.pord p) :=
  ⟨mem_table _, by
    have h := packCommand_and 0xB 0xF (pointByte p) 0x00 0x00 0xFF
    simp only [Row.covers, Instr.row, encode, beq_iff_eq]
    exact h.trans (by simp; decide)⟩

end Sys2Proof.Laws.OpcodeRow
end

