-- ==== Sys2Proof/Laws/Transaction.lean ====
section
/-! SUPPORT. What a step can do, said once, phase by phase. -/

namespace Sys2Proof.Machine

theorem step_quiet {s : State} (h : s.inputs = []) : step s = stepQuiet s := by
  simp [step, stepNext, h]

theorem step_sample {s : State} {x : Sample} {rest : List Sample} (h : s.inputs = x :: rest) :
    step s = stepAt x { s with inputs := rest } := by
  simp [step, stepNext, h]

theorem stepAt_rst {x : Sample} (s : State) (h : x.rst = true) : stepAt x s = .next (s.resetTo x.cfgA) := by
  simp [stepAt, h]

theorem stepAt_idle {x : Sample} {s : State} (hr : x.rst = false) (h : s.phase = .idle) :
    stepAt x s = .next (if x.cmdValid then s.accept x.cmd else s) := by
  simp [stepAt, hr, h]

theorem stepAt_busy {x : Sample} {s : State} {w : CmdWord} (hr : x.rst = false) (h : s.phase = .busy w) :
    stepAt x s = if x.latDone then runCommand w s else .next s := by
  simp [stepAt, hr, h]

theorem stepAt_done {x : Sample} {s : State} {r : RspWord} (hr : x.rst = false) (h : s.phase = .done r) :
    stepAt x s = .next (if x.rspReady then s.deliver r else s) := by
  simp [stepAt, hr, h]

/-- Everything a step at a sample can be. -/
theorem stepAt_cases (x : Sample) (s : State) :
    (x.rst = true ∧ stepAt x s = .next (s.resetTo x.cfgA)) ∨
    (x.rst = false ∧ s.phase = .idle ∧ x.cmdValid = true ∧ stepAt x s = .next (s.accept x.cmd)) ∨
    (∃ w, x.rst = false ∧ s.phase = .busy w ∧ x.latDone = true ∧ stepAt x s = runCommand w s) ∨
    (∃ r, x.rst = false ∧ s.phase = .done r ∧ x.rspReady = true ∧ stepAt x s = .next (s.deliver r)) ∨
    (x.rst = false ∧ stepAt x s = .next s) := by
  cases hr : x.rst
  · cases h : s.phase with
    | idle => rw [stepAt_idle hr h]; cases x.cmdValid <;> simp
    | busy w => rw [stepAt_busy hr h]; cases x.latDone <;> simp
    | done r => rw [stepAt_done hr h]; cases x.rspReady <;> simp
  · simp [stepAt_rst s hr]

/-- Everything a step of a quiet host can be. -/
theorem stepQuiet_cases (s : State) :
    (∃ w, s.phase = .busy w ∧ stepQuiet s = runCommand w s) ∨
    ((∀ w, s.phase ≠ .busy w) ∧ stepQuiet s = .next s) := by
  unfold stepQuiet
  split <;> simp_all

theorem runCommand_ok {w : CmdWord} {i : Instr} (s : State) (h : decode w = .ok i) : runCommand w s = exec i s := by
  simp [runCommand, h]

theorem runCommand_illegal {w : CmdWord} {e : DecodeError} (s : State) (h : decode w = .error e) :
    runCommand w s = .next (s.raiseStatus .illegal) := by
  simp [runCommand, h]

end Sys2Proof.Machine
end

