-- ==== Sys2Proof/Laws/Run.lean ====
section
/-! SUPPORT. The induction over a run, packaged once. -/

namespace Sys2Proof.Machine

theorem run_zero (s : State) : Sys2Proof.core.run 0 s = .next s := rfl

theorem run_succ {s t : State} (h : step s = .next t) (k : Nat) :
    Sys2Proof.core.run (k + 1) s = Sys2Proof.core.run k t := by
  have h' : Sys2Proof.core.step s = .next t := h
  simp only [Host.Core.run, h']

/-- A run of `k + 1` steps that answers is a step that answers and a run of `k` that does. -/
theorem run_succ_next {k : Nat} {s u : State} (h : Sys2Proof.core.run (k + 1) s = .next u) :
    ∃ t, step s = .next t ∧ Sys2Proof.core.run k t = .next u := by
  simp only [Host.Core.run] at h
  split at h
  · exact ⟨_, ‹_›, h⟩
  · cases h
  · cases h

/-- What every step keeps, every run keeps. -/
theorem run_keeps {inv : State → Prop} (hs : ∀ s t, inv s → step s = .next t → inv t) :
    ∀ (k : Nat) (s t : State), inv s → Sys2Proof.core.run k s = .next t → inv t
  | 0, s, t, hi, h => by
    rw [run_zero] at h
    cases h
    exact hi
  | k + 1, s, t, hi, h => by
    obtain ⟨m, h1, h2⟩ := run_succ_next h
    exact run_keeps hs k m t (hs s m hi h1) h2

end Sys2Proof.Machine
end

