-- ==== Sys2Proof/Tests/Slice0.lean ====
section
/-! SUPPORT. Tests. Expected words and responses are the spec's own vectors (spec/95_test_vectors.md) and tables
(spec/40_field.md R116, R117), or words written out from spec/30_encoding.md R67, R76. -/

namespace Sys2Proof.Tests
open Sys2Proof Sys2Proof.Machine Sys2Proof.Safety

/-- The response after executing `w` under `ca`, through `step` from a BUSY engine of a quiet host. -/
def answer (ca : Elem) (w : CmdWord) : Option RspWord :=
  match step ((State.afterReset ca).accept w) with
  | .next t => match t.phase with
    | .done r => some r
    | _ => none
  | _ => none

/-! ## WellFormed: one ill-formed line for each check -/

theorem test_wf_refuses_element_16 : (AsmLine.fadd 16 0).wf = false := by decide
theorem test_wf_refuses_second_element_16 : (AsmLine.fdiv 0 16).wf = false := by decide
theorem test_wf_refuses_wide_256 : (AsmLine.fred 256).wf = false := by decide
theorem test_wf_refuses_coordinate_16 : (AsmLine.pneg (0, 16)).wf = false := by decide
theorem test_wf_refuses_scalar_256 : (AsmLine.pmul (1, 1) 256).wf = false := by decide
theorem test_wf_refuses_word_of_21_bits : (AsmLine.word 0x100000).wf = false := by decide
theorem test_wf_accepts_scalar_0 : (AsmLine.pmul (1, 1) 0).wf = true := by decide

/-! ## Decode: every constructor's word, written out from R67 -/

theorem test_decode_fdeg : decode 0b0001_0001_0011_0000_0000 = .ok (.fdeg 19) := by decide
theorem test_decode_fadd : decode 0b0010_0000_1100_0000_1010 = .ok (.fadd 12 10) := by decide
theorem test_decode_fmul : decode 0b0011_0000_1000_0000_0010 = .ok (.fmul 8 2) := by decide
theorem test_decode_fred : decode 0b0100_0001_0000_0000_0000 = .ok (.fred 16) := by decide
theorem test_decode_finv : decode 0b0101_0000_0010_0000_0000 = .ok (.finv 2) := by decide
theorem test_decode_fdiv : decode 0b0110_0000_0101_0000_1100 = .ok (.fdiv 5 12) := by decide
theorem test_decode_padd : decode 0b1000_1100_0101_1000_1101 = .ok (.padd ⟨12, 5⟩ ⟨8, 13⟩) := by decide
theorem test_decode_pneg : decode 0b1001_1100_0101_0000_0000 = .ok (.pneg ⟨12, 5⟩) := by decide
theorem test_decode_pmul : decode 0b1010_1100_0101_0000_0101 = .ok (.pmul ⟨12, 5⟩ 5) := by decide
theorem test_decode_pord : decode 0b1011_1100_0101_0000_0000 = .ok (.pord ⟨12, 5⟩) := by decide
theorem test_decode_zero_word : decode 0x00000 = .error .reservedOpcode := by decide
theorem test_decode_reserved_bit : decode 0x50001 = .error .reservedOperandBits := by decide
theorem test_decodeTableWord_pord : decodeTableWord 24 0xBC500 = some (.pord ⟨12, 5⟩) := by decide
theorem test_decodeTableWord_too_wide : decodeTableWord 24 0x1BC500 = none := by decide

/-! ## Encode and assemble (R76) -/

theorem test_assemble_padd : assemble (.padd (12, 5) (8, 13)) = some 0x8C58D := by decide
theorem test_text_padd : assembleText "PADD (12, 5), (8, 13)" = some 0x8C58D := by decide
theorem test_text_pmul_expected : readSource "PMUL ID, 0x07 -> OK ID ; identity" = some ⟨.pmul (0, 0) 7, some 0x000⟩ := by
  decide
theorem test_text_error_name : readSource ".word 0b101 -> ILLEGAL" = some ⟨.word 5, some 0x300⟩ := by decide
theorem test_text_misfit : assembleText "FINV 16" = none := by decide
theorem test_assemble_fsub : assemble (.fsub 12 10) = some 0x20C0A := by decide
theorem test_assemble_misfit : assemble (.fadd 16 0) = none := by decide

/-! ## Commands, two vectors each (spec/95_test_vectors.md Part 2) -/

theorem test_fdeg_zero : answer 3 0x10000 = some 0x0FF := by decide
theorem test_fdeg_255 : answer 3 0x1FF00 = some 0x007 := by decide
theorem test_fadd : answer 3 0x20C0A = some 0x006 := by decide
theorem test_fadd_misfit : answer 3 0x21000 = some 0x300 := by decide
theorem test_fmul_reduces : answer 3 0x30802 = some 0x003 := by decide
theorem test_fmul_15_15 : answer 3 0x30F0F = some 0x00A := by decide
theorem test_fred_255 : answer 3 0x4FF00 = some 0x00D := by decide
theorem test_fred_minpol : answer 3 0x41300 = some 0x000 := by decide
theorem test_finv_12 : answer 3 0x50C00 = some 0x00A := by decide
theorem test_finv_zero : answer 3 0x50000 = some 0x100 := by decide
theorem test_fdiv : answer 3 0x6050C = some 0x004 := by decide
theorem test_fdiv_zero_by_zero : answer 3 0x60000 = some 0x100 := by decide
theorem test_padd_generic_other_ca : answer 8 0x8C58D = some 0x0A3 := by decide
theorem test_padd_zero_divisor : answer 3 0x8C5C6 = some 0x100 := by decide
theorem test_pneg : answer 3 0x9C500 = some 0x0C9 := by decide
theorem test_pneg_reserved : answer 3 0x9C501 = some 0x300 := by decide
theorem test_pmul_5 : answer 3 0xAC505 = some 0x0F0 := by decide
theorem test_pmul_identity_by_zero : answer 3 0xA0000 = some 0x200 := by decide
theorem test_pord_24 : answer 3 0xB8700 = some 0x018 := by decide
theorem test_pord_identity : answer 3 0xB0000 = some 0x001 := by decide

/-! ## Witnesses: for each statement with hypotheses, states and operands that meet them, one for each clause -/

/-- An engine in the phase `p` under `CA = 3` with the samples `xs` to come. -/
def engine (p : Phase) (xs : List Sample) : State := { ca := 3, phase := p, inputs := xs, outputs := [] }

/-- A sample in which the host offers `w`. -/
def offer (w : CmdWord) : Sample := { Sample.run with cmdValid := true, cmd := w }

/-- A sample in which the host takes a response. -/
def take : Sample := { Sample.run with rspReady := true }

/-- A sample with `rst` high and `a` on the strap. -/
def strap (a : Elem) : Sample := { Sample.run with rst := true, cfgA := a }

/-- The state after a step, where there is one. -/
def after (s : State) : Option State :=
  match step s with
  | .next t => some t
  | _ => none

theorem witness_EncodeInvertsDecode : decode 0x1FF00 = .ok (.fdeg 255) ∧ decode 0xAFFFF = .ok (.pmul ⟨15, 15⟩ 255) := by
  decide

theorem witness_DecodeFollowsOpcodeTable :
    (Instr.finv 15).row ∈ opcodeTable ∧ (0x50F00 : CmdWord) &&& (Instr.finv 15).row.mask = (Instr.finv 15).row.value ∧
      decode 0x50F00 = .ok (.finv 15) := by
  decide

theorem witness_ReservedWordsRaiseIllegal :
    opc 0x70202 = 0x7 ∧ opc 0xC0000 = 0xC ∧ opc 0x20010 = 0x2 ∧
      (0x20010 : CmdWord) &&& 0x0F0F0 ≠ 0 ∧ opc 0x8FFFF = 0x8 ∧ opc 0xA0000 = 0xA := by
  decide

theorem witness_AssemblerWritesTheTableWords :
    (AsmLine.pmul (0, 15) 256).wf = false ∧ assemble (.pmul (0, 15) 255) = some 0xA0FFF ∧
      assemble (.word 0xFFFFF) = some 0xFFFFF ∧ assemble (.word 0x100000) = none ∧ assemble (.fsqr 16) = none := by
  decide

theorem witness_StepRunsTheDecodedCommand :
    (engine (.busy 0x8C58D) []).phase = .busy 0x8C58D ∧ decode 0x8C58D = .ok (.padd ⟨12, 5⟩ ⟨8, 13⟩) ∧
      mayExecute (engine (.busy 0x8C58D) []) = true ∧ mayExecute (engine (.busy 0x8C58D) [Sample.run]) = true := by
  decide

theorem witness_ExecuteStepIsTheExecFunction :
    (engine (.busy 0x00000) [Sample.run]).phase = .busy 0x00000 ∧
      mayExecute (engine (.busy 0x00000) [Sample.run]) = true := by
  decide

theorem witness_AcceptTakesEveryWord :
    (engine .idle [offer 0xFFFFF]).phase = .idle ∧ (offer 0xFFFFF).rst = false ∧ (offer 0xFFFFF).cmdValid = true := by
  decide

theorem witness_DeliverHandsTheResponseOver :
    (engine (.done 0x01D) [take]).phase = .done 0x01D ∧ take.rst = false ∧ take.rspReady = true ∧
      Sample.run.rst = false ∧ Sample.run.rspReady = false ∧ (engine (.done 0x01D) []).inputs = [] := by
  decide

theorem witness_ResetFromEveryPhase :
    (engine (.busy 0xBC500) [strap 8]).inputs = [strap 8] ∧ (strap 8).rst = true := by
  decide

theorem witness_CommandTransferIsValidAndReady :
    (engine .idle [offer 0x30202]).cmdReady (offer 0x30202).rst = true ∧ (offer 0x30202).cmdValid = true ∧
      (after (engine .idle [offer 0x30202])).isSome = true := by
  decide

theorem witness_ResponseTransferIsValidAndReady :
    (engine (.done 0x004) [take]).rspValid take.rst = true ∧ take.rspReady = true ∧
      ¬ (Sample.run.rspReady = true ∧ (engine (.done 0x004) [Sample.run]).rspValid Sample.run.rst = true) ∧
      (after (engine (.done 0x004) [take])).isSome = true ∧
      (after (engine (.done 0x004) [Sample.run])).isSome = true := by
  decide

theorem witness_OnlyTheFourPhaseTransitions :
    ((after (engine .idle [offer 0x30202])).map State.phase = some (.busy 0x30202)) ∧
      ((after (engine (.busy 0x30202) [])).map State.phase = some (.done 0x004)) ∧
      ((after (engine (.done 0x004) [take])).map State.phase = some .idle) ∧
      ((after (engine (.busy 0x30202) [strap 0])).map State.phase = some .idle) := by
  decide

theorem witness_CoefficientWrittenOnlyByReset :
    ((after (engine .idle [strap 15])).map State.ca = some 15) ∧
      ((after (engine .idle [])).map State.ca = some 3) ∧ Sample.run.rst = false := by
  decide

theorem witness_FieldCommandsIgnoreTheCoefficient :
    Claims.ignoresCoefficient (.fdiv 15 0) = true ∧ Claims.ignoresCoefficient (.pneg ⟨0, 0⟩) = true := by
  decide

theorem witness_ResponseDependsOnCoefficientAndWord :
    (engine .idle []).ca = (engine (.done 0x300) [take]).ca := by
  decide

theorem witness_ResponsesFollowAcceptanceOrder :
    (engine .idle [offer 0x30202]).phase = .idle ∧ (∀ x ∈ [offer 0x30202], x.rst = false) ∧
      (after (engine .idle [offer 0x30202])).isSome = true := by
  decide

/-- A deliver, an accept and an execute without a reset, and a reset in DONE. -/
theorem witness_StepKeepsAnswersInOrder :
    take.rst = false ∧ (after (engine (.done 0x004) [take])).isSome = true ∧
      (after (engine .idle [offer 0x30202])).isSome = true ∧ (after (engine (.busy 0x30202) [])).isSome = true ∧
      (strap 15).rst = true ∧ (after (engine (.done 0x004) [strap 15])).isSome = true := by
  decide

/-- A host that is ready and changes the strap, but neither resets nor offers. -/
theorem witness_StateAfterReset :
    ({ take with cfgA := 15 } : Sample).rst = false ∧ ({ take with cfgA := 15 } : Sample).cmdValid = false := by
  decide

theorem witness_BusyEngineExecutes :
    (engine (.busy 0xB8700) [{ Sample.run with latDone := false }]).phase = .busy 0xB8700 ∧
      ∀ x ∈ [{ Sample.run with latDone := false }], x.rst = false := by
  decide

theorem witness_FinishedRunStaysFinished :
    runOver (engine .idle [strap 8]) = true ∧ runOver (engine .idle [take]) = true ∧
      ∀ x ∈ [take], x.rst = false := by
  decide

theorem witness_StepKeepsResponseSound :
    responseSound (engine (.busy 0x50000) []) = true ∧ (after (engine (.busy 0x50000) [])).isSome = true ∧
      responseSound (engine (.done 0x101) []) = false := by
  decide

theorem witness_CommandsWriteOnlyTheResponse :
    exec (.fadd 15 15) State.reset = .next (State.reset.complete 0x000) := by
  rfl

theorem witness_FdegCommand : (0x01 : Byte) ≠ 0 ∧ (0xFF : Wide) ≠ 0 ∧ (0x01 : Wide) ≠ 0 := by decide
theorem witness_FaddCommand : ((0x1 : Elem) ≠ 0 ∨ (0x0 : Elem) ≠ 0) ∧ ((0x0 : Elem) ≠ 0 ∨ (0xF : Elem) ≠ 0) := by decide
theorem witness_FmulCommand : ((0xF : Elem) ≠ 0 ∨ (0x0 : Elem) ≠ 0) ∧ ((0x0 : Elem) ≠ 0 ∨ (0x8 : Elem) ≠ 0) := by decide
theorem witness_FredCommand : (0x01 : Byte) ≠ 0 ∧ (0xFF : Byte) ≠ 0 := by decide
theorem witness_FinvCommand :
    ((0x1 : Elem) ≠ 0 ∨ (0x00 : Byte) ≠ 0) ∧ (1 : Elem) ≠ 0 ∧ (15 : Elem) ≠ 0 ∧ gfInv 12 = .ok 10 := by decide
theorem witness_FdivCommand : ((0x0 : Elem) ≠ 0 ∨ (0x1 : Elem) ≠ 0) ∧ (1 : Elem) ≠ 0 ∧ (15 : Elem) ≠ 0 := by decide
theorem witness_InverseTable : (1 : Elem) ≠ 0 ∧ (15 : Elem) ≠ 0 := by decide
theorem witness_InverterMaskIsTheRemainder : (1 : Elem) ≠ 0 ∧ (12 : Elem) ≠ 0 := by decide

/-- A pair of points for each of the six clauses: identity left, identity right, a point of first coordinate 0 with itself,
doubling, two first coordinates, and a zero divisor. -/
theorem witness_PointAdditionCases :
    ((⟨12, 5⟩ : Point) ≠ Point.identity ∧ Point.identity = (⟨0, 0⟩ : Point)) ∧
      ((⟨0, 1⟩ : Point) ≠ Point.identity ∧ ((1 : Elem) ^^^ 1 = 0)) ∧
      ((12 : Elem) ≠ 0) ∧
      ((⟨12, 5⟩ : Point) ≠ Point.identity ∧ (⟨8, 13⟩ : Point) ≠ Point.identity ∧ (12 : Elem) ≠ 8) ∧
      ((⟨12, 6⟩ : Point) ≠ Point.identity ∧ (⟨12, 5⟩ : Point) ≠ ⟨12, 6⟩ ∧ ((5 : Elem) ^^^ 6 ≠ 12)) := by
  decide

theorem witness_PaddCommand :
    meetsZeroDivisor ⟨12, 5⟩ ⟨12, 5⟩ = false ∧ meetsZeroDivisor ⟨12, 5⟩ ⟨12, 9⟩ = false ∧
      meetsZeroDivisor ⟨12, 5⟩ ⟨12, 6⟩ = true ∧ meetsZeroDivisor ⟨0, 1⟩ ⟨0, 15⟩ = true := by
  decide

theorem witness_PnegCommand : (0x01 : Byte) ≠ 0 := by decide
theorem witness_PmulCommand : (1 : Scalar) ≠ 0 ∧ (255 : Scalar) ≠ 0 := by decide
theorem witness_ScalarProductIsRepeatedAddition : (1 : Scalar) ≠ 0 ∧ (255 : Scalar) ≠ 0 := by decide
theorem witness_PordCommand : (0x10 : Byte) ≠ 0 ∧ ptMul 3 ⟨1, 12⟩ 4 = .ok Point.identity := by decide

theorem witness_AdditionFailsExactlyOnZeroDivisor :
    meetsZeroDivisor ⟨1, 0⟩ ⟨2, 0⟩ = false ∧ valid 3 1 ⟨12, 5⟩ = true ∧ valid 3 1 ⟨12, 9⟩ = true := by
  decide

theorem witness_EveryPointLiesOnOneCurve : (⟨0, 1⟩ : Point) ≠ Point.identity ∧ onCurve 3 1 ⟨0, 1⟩ = true := by decide

theorem witness_ValidPointsAreClosedAndCommute :
    valid 3 1 Point.identity = true ∧ valid 3 1 ⟨12, 5⟩ = true ∧ valid 8 1 ⟨14, 10⟩ = true := by
  decide

theorem witness_ValidPointsAssociate :
    valid 3 1 ⟨12, 5⟩ = true ∧ valid 3 1 ⟨8, 13⟩ = true ∧ valid 3 1 ⟨0, 1⟩ = true := by
  decide

/-! ## Placing a command -/

/-- The command placed after reset is the one the next step runs, also before a sample that would reset the engine. -/
theorem test_withFetchWord_runs_next :
    (after (State.reset.withFetchWord 24 0x30802)).map State.phase = some (.done 0x003) ∧
      (after ((engine .idle [strap 8]).withFetchWord 24 0x30802)).map State.phase = some (.done 0x003) := by
  decide

/-- A reset in BUSY drops the command (Program 6, steps 1 and 2). -/
theorem test_reset_in_busy_drops : after (engine (.busy 0xBC500) [strap 8]) =
    some { ca := 8, phase := .idle, inputs := [], outputs := [] } := by
  decide

end Sys2Proof.Tests
end

