-- ==== Sys2Proof/Proofs/PhaseTransitions.lean ====
section
/-! What a step that answers can have done (R47 to R50), said once, and the transitions of `PHASE` (R25). -/

namespace Sys2Proof.Machine
open Sys2Proof.Safety

/-- The execute step (R48) writes `RSPR` and `PHASE` and nothing else, for a word that decodes and for one that does not. -/
theorem runCommand_next {w : CmdWord} {s t : State} (h : runCommand w s = .next t) : ∃ r, t = s.complete r := by
  cases hd : decode w with
  | ok i =>
    rw [runCommand_ok s hd, exec_eq_respond] at h
    exact respond_next h
  | error e =>
    rw [runCommand_illegal s hd] at h
    cases h
    exact ⟨_, rfl⟩

/-- A step that answers takes the next sample, if there is one, and resets, accepts, executes, delivers or waits. -/
theorem step_next_cases {s t : State} (h : step s = .next t) :
    (∃ x rest, s.inputs = x :: rest ∧ x.rst = true ∧ t = (sampleTaken s).resetTo x.cfgA) ∨
    (∃ x rest, s.inputs = x :: rest ∧ x.rst = false ∧ s.phase = .idle ∧ x.cmdValid = true ∧
      t = (sampleTaken s).accept x.cmd) ∨
    (∃ w r, mayExecute s = true ∧ s.phase = .busy w ∧ runCommand w (sampleTaken s) = .next t ∧
      t = (sampleTaken s).complete r) ∨
    (∃ x rest r, s.inputs = x :: rest ∧ x.rst = false ∧ s.phase = .done r ∧ x.rspReady = true ∧
      t = (sampleTaken s).deliver r) ∨
    t = sampleTaken s := by
  cases hin : s.inputs with
  | nil =>
    have same : sampleTaken s = s := by rw [sampleTaken, hin, List.tail_nil, ← hin]
    rw [step_quiet hin] at h
    rw [same]
    obtain ⟨w, hw, e⟩ | ⟨-, e⟩ := stepQuiet_cases s <;> rw [e] at h
    · obtain ⟨r, ht⟩ := runCommand_next h
      exact .inr (.inr (.inl ⟨w, r, by simp [mayExecute, hin], hw, h, ht⟩))
    · cases h
      exact .inr (.inr (.inr (.inr rfl)))
  | cons x rest =>
    have taken : { s with inputs := rest } = sampleTaken s := by simp [sampleTaken, hin]
    rw [step_sample hin, taken] at h
    obtain ⟨hr, e⟩ | ⟨hr, hp, hv, e⟩ | ⟨w, hr, hp, hl, e⟩ | ⟨r, hr, hp, hv, e⟩ | ⟨-, e⟩ :=
      stepAt_cases x (sampleTaken s) <;> rw [e] at h
    · cases h
      exact .inl ⟨x, rest, rfl, hr, rfl⟩
    · cases h
      exact .inr (.inl ⟨x, rest, rfl, hr, hp, hv, rfl⟩)
    · obtain ⟨r, ht⟩ := runCommand_next h
      exact .inr (.inr (.inl ⟨w, r, by simp [mayExecute, hin, hr, hl], hp, h, ht⟩))
    · cases h
      exact .inr (.inr (.inr (.inl ⟨x, rest, r, rfl, hr, hp, hv, rfl⟩)))
    · cases h
      exact .inr (.inr (.inr (.inr rfl)))

end Sys2Proof.Machine

namespace Sys2Proof.Proofs
open Sys2Proof.Machine

/-- Settles O16: each of the five things a step can do makes one of R25's transitions, or none. -/
theorem onlyTheFourPhaseTransitions : Obligations.OnlyTheFourPhaseTransitions := by
  unfold Obligations.OnlyTheFourPhaseTransitions
  intro s t h
  obtain ⟨x, rest, hin, hrst, rfl⟩ | ⟨x, rest, -, -, hidle, -, rfl⟩ | ⟨w, r, -, hbusy, -, rfl⟩ |
    ⟨x, rest, r, -, -, hdone, -, rfl⟩ | rfl := step_next_cases h
  case inl => exact .inr (.inr (.inr (.inr ⟨rfl, x, rest, hin, hrst⟩)))
  case inr.inl => exact .inr (.inl ⟨hidle, x.cmd, rfl⟩)
  case inr.inr.inl => exact .inr (.inr (.inl ⟨⟨w, hbusy⟩, r, rfl⟩))
  case inr.inr.inr.inl => exact .inr (.inr (.inr (.inl ⟨⟨r, hdone⟩, rfl⟩)))
  case inr.inr.inr.inr => exact .inl rfl

end Sys2Proof.Proofs
end

