-- ==== Sys2Proof/Proofs/Channels.lean ====
section
/-! The step of an engine at one sample of the pins, phase by phase, with the sample taken (R47, R49, R50), and the response
channel (R43). -/

namespace Sys2Proof.Machine

/-- Reset (R50) at the next sample: the phase and the other pins are not looked at. -/
theorem step_rst {s : State} {x : Sample} {rest : List Sample} (hin : s.inputs = x :: rest) (hr : x.rst = true) :
    step s = .next (State.resetTo x.cfgA { s with inputs := rest }) := by
  rw [step_sample hin, stepAt_rst _ hr]

/-- Accept (R47) at the next sample. -/
theorem step_idle_offer {s : State} {x : Sample} {rest : List Sample} (hin : s.inputs = x :: rest) (hr : x.rst = false)
    (hp : s.phase = .idle) (hv : x.cmdValid = true) :
    step s = .next (State.accept x.cmd { s with inputs := rest }) := by
  rw [step_sample hin, stepAt_idle (s := { s with inputs := rest }) hr hp, if_pos hv]

/-- Deliver (R49) at the next sample. -/
theorem step_done_ready {s : State} {x : Sample} {rest : List Sample} {r : RspWord} (hin : s.inputs = x :: rest)
    (hr : x.rst = false) (hp : s.phase = .done r) (hv : x.rspReady = true) :
    step s = .next (State.deliver r { s with inputs := rest }) := by
  rw [step_sample hin, stepAt_done (s := { s with inputs := rest }) hr hp, if_pos hv]

/-- A DONE engine waits at a sample at which the host is not ready (R49). -/
theorem step_done_not_ready {s : State} {x : Sample} {rest : List Sample} {r : RspWord} (hin : s.inputs = x :: rest)
    (hr : x.rst = false) (hp : s.phase = .done r) (hv : x.rspReady = false) :
    step s = .next { s with inputs := rest } := by
  rw [step_sample hin, stepAt_done (s := { s with inputs := rest }) hr hp, if_neg (by simp [hv])]

/-- An engine that is not BUSY waits while its host is quiet (R54, R49). -/
theorem step_quiet_not_busy {s : State} (hin : s.inputs = []) (hp : ∀ w, s.phase ≠ .busy w) : step s = .next s := by
  rw [step_quiet hin]
  obtain ⟨w, hbusy, -⟩ | ⟨-, waits⟩ := stepQuiet_cases s
  · exact absurd hbusy (hp w)
  · exact waits

/-- A step without a response transfer delivers nothing, and it takes the response of a DONE engine away only by a reset. -/
theorem step_without_transfer {s t : State} {x : Sample} {rest : List Sample} (hin : s.inputs = x :: rest)
    (h : step s = .next t) (no : ¬ (x.rspReady = true ∧ s.rspValid x.rst = true)) :
    t.outputs = s.outputs ∧ (∀ r, s.phase = .done r → x.rst = false → t.phase = .done r) := by
  obtain ⟨y, _, hy, hrst, rfl⟩ | ⟨_, _, -, -, hidle, -, rfl⟩ | ⟨w, _, -, hbusy, -, rfl⟩ |
    ⟨y, _, r, hy, hrst, hdone, hready, rfl⟩ | rfl := step_next_cases h
  case inl =>
    obtain ⟨rfl, -⟩ := List.cons.inj (hin.symm.trans hy)
    exact ⟨rfl, fun _ _ low => by simp [hrst] at low⟩
  case inr.inl => exact ⟨rfl, fun _ hdone => by simp [hidle] at hdone⟩
  case inr.inr.inl => exact ⟨rfl, fun _ hdone => by simp [hbusy] at hdone⟩
  case inr.inr.inr.inl =>
    obtain ⟨rfl, -⟩ := List.cons.inj (hin.symm.trans hy)
    exact absurd ⟨hready, (rspValid_iff _ s).2 ⟨⟨r, hdone⟩, hrst⟩⟩ no
  case inr.inr.inr.inr => exact ⟨rfl, fun _ hdone _ => hdone⟩

end Sys2Proof.Machine

namespace Sys2Proof.Proofs
open Sys2Proof.Machine

/-- Settles O15: `rsp_valid` and `rsp_ready` together are exactly the condition of the deliver step, and none of the other steps
writes the host's record. -/
theorem responseTransferIsValidAndReady : Obligations.ResponseTransferIsValidAndReady := by
  unfold Obligations.ResponseTransferIsValidAndReady
  intro s t x rest hin h
  refine ⟨fun hready hvalid => ?_, step_without_transfer hin h⟩
  obtain ⟨⟨r, hdone⟩, hrst⟩ := (rspValid_iff _ _).1 hvalid
  rw [step_done_ready hin hrst hdone hready] at h
  cases h
  exact ⟨r, (rspPin_eq_some _ _ _).2 ⟨hdone, hrst⟩, rfl, rfl⟩

/-- Settles O10: the accept step does not look at the word. -/
theorem acceptTakesEveryWord : Obligations.AcceptTakesEveryWord := by
  unfold Obligations.AcceptTakesEveryWord
  intro s x rest hidle hin hrst hvalid
  exact step_idle_offer hin hrst hidle hvalid

/-- Settles O11: a DONE engine at a sample with a ready host, at one with a host that is not ready, and with a quiet host. -/
theorem deliverHandsTheResponseOver : Obligations.DeliverHandsTheResponseOver := by
  unfold Obligations.DeliverHandsTheResponseOver
  intro s r hdone
  refine ⟨fun x rest hin hrst hready => ?_, fun x rest hin hrst hnot => ?_, fun hquiet => ?_⟩
  · exact step_done_ready hin hrst hdone hready
  · exact step_done_not_ready hin hrst hdone hnot
  · exact step_quiet_not_busy hquiet (by simp [hdone])

/-- Settles O12: `rst` is looked at before the phase. -/
theorem resetFromEveryPhase : Obligations.ResetFromEveryPhase := by
  unfold Obligations.ResetFromEveryPhase
  intro s x rest hin hrst
  exact step_rst hin hrst

end Sys2Proof.Proofs
end

