-- ==== Sys2Proof/Proofs/OpcodeTable.lean ====
section
/-! The opcode, the format and the row of a command, how the decoder uses them, and the opcode table R67. -/

namespace Sys2Proof.Machine

/-- A masked word agrees with a packed one exactly when its three fields do. -/
theorem and_packCommand_eq_iff (w : CmdWord) (x o : BitVec 4) (ma mb a b : Byte) :
    w &&& packCommand x ma mb = packCommand o a b ↔ opc w &&& x = o ∧ byteA w &&& ma = a ∧ byteB w &&& mb = b := by
  have fields : w &&& packCommand x ma mb = packCommand (opc w &&& x) (byteA w &&& ma) (byteB w &&& mb) := by
    rw [← Laws.OpcodeRow.packCommand_and, packCommand_fields]
  rw [fields]
  refine ⟨fun h => ⟨?_, ?_, ?_⟩, fun ⟨ho, ha, hb⟩ => by rw [ho, ha, hb]⟩
  · simpa using congrArg opc h
  · simpa using congrArg byteA h
  · simpa using congrArg byteB h

theorem highNibble_eq_zero_iff (b : Byte) : highNibble b = 0#4 ↔ b &&& 0xF0#8 = 0#8 := by
  revert b; decide

/-- The "must be 0" positions of operand byte `A` in a format (R61). -/
def Format.reservedA : Format → Byte
  | .FW | .PP | .P1 | .PK => 0x00
  | .FF | .F1 => 0xF0

/-- The "must be 0" positions of operand byte `B` in a format (R61). -/
def Format.reservedB : Format → Byte
  | .FW | .F1 | .P1 => 0xFF
  | .FF => 0xF0
  | .PP | .PK => 0x00

theorem reservedClear_iff (f : Format) (w : CmdWord) :
    f.reservedClear w = true ↔ byteA w &&& f.reservedA = 0 ∧ byteB w &&& f.reservedB = 0 := by
  have all (b : Byte) : b &&& 0xFF#8 = b := BitVec.and_allOnes
  cases f <;> simp [Format.reservedClear, Format.reservedA, Format.reservedB, highNibble_eq_zero_iff, all]

end Sys2Proof.Machine

namespace Sys2Proof
open Machine Claims

/-- The opcode of a command (R67). -/
def Instr.opcode : Instr → BitVec 4
  | .fdeg _ => 0x1
  | .fadd _ _ => 0x2
  | .fmul _ _ => 0x3
  | .fred _ => 0x4
  | .finv _ => 0x5
  | .fdiv _ _ => 0x6
  | .padd _ _ => 0x8
  | .pneg _ => 0x9
  | .pmul _ _ => 0xA
  | .pord _ => 0xB

/-- The operand format of a command (R67). -/
def Instr.format : Instr → Format
  | .fdeg _ | .fred _ => .FW
  | .fadd _ _ | .fmul _ _ | .fdiv _ _ => .FF
  | .finv _ => .F1
  | .padd _ _ => .PP
  | .pneg _ | .pord _ => .P1
  | .pmul _ _ => .PK

theorem opcode_not_reserved (i : Instr) : i.opcode ∉ reservedOpcodes := by
  cases i <;> simp only [Instr.opcode] <;> decide

/-- Bit 3 of the opcode selects the unit (R67). -/
theorem opcode_bit_three_iff (i : Instr) :
    i.opcode.getLsbD 3 = true ↔ i.row.mnemonic ∈ ["PADD", "PNEG", "PMUL", "PORD"] := by
  cases i <;> simp only [Instr.opcode, Instr.row] <;> decide

theorem row_mask (i : Instr) : i.row.mask = packCommand 0xF i.format.reservedA i.format.reservedB := by
  cases i <;> simp only [Instr.row, Instr.format] <;> decide

theorem row_value (i : Instr) : i.row.value = packCommand i.opcode 0 0 := by
  cases i <;> simp only [Instr.row, Instr.opcode] <;> decide

theorem find_row (i : Instr) : opcodeTable.find? (fun r => r.value == packCommand i.opcode 0 0) = some i.row := by
  cases i <;> simp only [Instr.row, Instr.opcode] <;> decide

/-- No two rows of the table have the same opcode (R67). -/
theorem row_eq_of_opcode_eq {i j : Instr} (h : i.opcode = j.opcode) : i.row = j.row :=
  Option.some.inj (by rw [← find_row, h, find_row])

theorem exists_row_of_mem {r : Row} (h : r ∈ opcodeTable) : ∃ i : Instr, i.row = r := by
  have rows : opcodeTable ⊆ List.map Instr.row [.fdeg 0, .fadd 0 0, .fmul 0 0, .fred 0, .finv 0, .fdiv 0 0,
    .padd ⟨0, 0⟩ ⟨0, 0⟩, .pneg ⟨0, 0⟩, .pmul ⟨0, 0⟩ 0, .pord ⟨0, 0⟩] := fun _ h => h
  obtain ⟨i, -, hi⟩ := List.mem_map.1 (rows h)
  exact ⟨i, hi⟩

/-- A row's mask keeps the opcode and the format's reserved bits, and its value wants the row's opcode and zeros. -/
theorem row_covers_iff (w : CmdWord) (i : Instr) :
    w &&& i.row.mask = i.row.value ↔ opc w = i.opcode ∧ i.format.reservedClear w = true := by
  have all : opc w &&& 0xF = opc w := BitVec.and_allOnes
  rw [row_mask, row_value, and_packCommand_eq_iff, reservedClear_iff, all]

/-- Everything the decoder can do: it refuses the opcode, or it reads the operands of a command with the word's opcode under
that command's format (R65). -/
theorem decode_cases (w : CmdWord) :
    (opc w ∈ reservedOpcodes ∧ decode w = .error .reservedOpcode) ∨
    (∃ i : Instr, opc w = i.opcode ∧ decode w = readOperands i.format w i) := by
  unfold decode
  split
  case h_1 h => exact .inr ⟨.fdeg _, BitVec.eq_of_toNat_eq h, rfl⟩
  case h_2 h => exact .inr ⟨.fadd _ _, BitVec.eq_of_toNat_eq h, rfl⟩
  case h_3 h => exact .inr ⟨.fmul _ _, BitVec.eq_of_toNat_eq h, rfl⟩
  case h_4 h => exact .inr ⟨.fred _, BitVec.eq_of_toNat_eq h, rfl⟩
  case h_5 h => exact .inr ⟨.finv _, BitVec.eq_of_toNat_eq h, rfl⟩
  case h_6 h => exact .inr ⟨.fdiv _ _, BitVec.eq_of_toNat_eq h, rfl⟩
  case h_7 h => exact .inr ⟨.padd _ _, BitVec.eq_of_toNat_eq h, rfl⟩
  case h_8 h => exact .inr ⟨.pneg _, BitVec.eq_of_toNat_eq h, rfl⟩
  case h_9 h => exact .inr ⟨.pmul _ _, BitVec.eq_of_toNat_eq h, rfl⟩
  case h_10 h => exact .inr ⟨.pord _, BitVec.eq_of_toNat_eq h, rfl⟩
  case h_11 =>
    refine .inl ⟨?_, rfl⟩
    generalize opc w = o at *
    revert o
    decide

/-- A word is read as a command only if it has the command's opcode and its format's reserved bits are clear. -/
theorem opc_and_reservedClear_of_decode {w : CmdWord} {i : Instr} (h : decode w = .ok i) :
    opc w = i.opcode ∧ i.format.reservedClear w = true := by
  obtain ⟨-, e⟩ | ⟨j, hj, e⟩ := decode_cases w <;> rw [e] at h
  · cases h
  · cases hc : j.format.reservedClear w with
    | true =>
      rw [readOperands_clear _ _ _ hc] at h
      cases h
      exact ⟨hj, hc⟩
    | false =>
      rw [readOperands_set _ _ _ hc] at h
      cases h

/-- A word that a row covers is a command of that row (R67). -/
theorem decode_of_row_covers {w : CmdWord} {r : Row} (hr : r ∈ opcodeTable) (h : w &&& r.mask = r.value) :
    ∃ i, decode w = .ok i ∧ i.row = r := by
  obtain ⟨j, rfl⟩ := exists_row_of_mem hr
  have hj : opc w = j.opcode := ((row_covers_iff w j).1 h).1
  obtain ⟨reserved, -⟩ | ⟨i, hi, e⟩ := decode_cases w
  · exact absurd (hj ▸ reserved) (opcode_not_reserved j)
  · have same : i.row = j.row := row_eq_of_opcode_eq (hi.symm.trans hj)
    have clear : i.format.reservedClear w = true := ((row_covers_iff w i).1 (same ▸ h)).2
    exact ⟨i, e.trans (readOperands_clear _ _ _ clear), same⟩

end Sys2Proof

namespace Sys2Proof.Proofs
open Sys2Proof.Machine

/-- Settles O3: the opcode and the format of a command are its row, and two rows of one word are the row of the one command it
decodes to. -/
theorem decodeFollowsOpcodeTable : Obligations.DecodeFollowsOpcodeTable := by
  unfold Obligations.DecodeFollowsOpcodeTable
  refine ⟨rfl, fun w i h => ?_, fun w r => decode_of_row_covers, fun w r q hr hq wr wq => ?_, fun w i h => ?_⟩
  · exact ⟨Laws.OpcodeRow.mem_table i, (row_covers_iff w i).2 (opc_and_reservedClear_of_decode h)⟩
  · obtain ⟨i, hi, rfl⟩ := decode_of_row_covers hr wr
    obtain ⟨j, hj, rfl⟩ := decode_of_row_covers hq wq
    rw [Except.ok.inj (hi.symm.trans hj)]
  · rw [(opc_and_reservedClear_of_decode h).1]
    exact opcode_bit_three_iff i

end Sys2Proof.Proofs
end

