-- ==== Sys2Proof/Proofs/ReservedWords.lean ====
section
/-! The words that are no command, by their defect (R65, R68, R69), and what executing one does (R163). -/

namespace Sys2Proof
open Machine Claims

theorem mustBeZero_opcode (i : Instr) :
    mustBeZero i.opcode = packCommand 0 i.format.reservedA i.format.reservedB := by
  cases i <;> simp only [Instr.opcode, Instr.format] <;> decide

/-- The mask of an opcode's "must be 0" positions finds what the format's check finds (R61). -/
theorem and_mustBeZero_eq_zero_iff (w : CmdWord) (i : Instr) :
    w &&& mustBeZero i.opcode = 0 ↔ i.format.reservedClear w = true := by
  have zero : (0 : CmdWord) = packCommand 0 0 0 := rfl
  rw [mustBeZero_opcode, zero, and_packCommand_eq_iff, reservedClear_iff]
  simp

theorem decode_reservedOpcode_iff (w : CmdWord) : decode w = .error .reservedOpcode ↔ opc w ∈ reservedOpcodes := by
  obtain ⟨reserved, e⟩ | ⟨i, hi, e⟩ := decode_cases w
  · exact iff_of_true e reserved
  · refine iff_of_false ?_ (hi ▸ opcode_not_reserved i)
    rw [e, readOperands]
    split <;> simp

theorem decode_reservedOperandBits_iff (w : CmdWord) :
    decode w = .error .reservedOperandBits ↔ opc w ∉ reservedOpcodes ∧ w &&& mustBeZero (opc w) ≠ 0 := by
  obtain ⟨reserved, e⟩ | ⟨i, hi, e⟩ := decode_cases w
  · exact iff_of_false (by simp [e]) fun h => h.1 reserved
  · have known : opc w ∉ reservedOpcodes := hi ▸ opcode_not_reserved i
    have bits : w &&& mustBeZero (opc w) ≠ 0 ↔ ¬ i.format.reservedClear w = true := by
      rw [hi, Ne, and_mustBeZero_eq_zero_iff]
    rw [and_iff_right known, bits, e, readOperands]
    split <;> simp [*]

/-- A word with either defect decodes to an error. -/
theorem decode_error_of_defect {w : CmdWord} (h : opc w ∈ reservedOpcodes ∨ w &&& mustBeZero (opc w) ≠ 0) :
    ∃ e, decode w = .error e := by
  by_cases reserved : opc w ∈ reservedOpcodes
  · exact ⟨_, (decode_reservedOpcode_iff w).2 reserved⟩
  · exact ⟨_, (decode_reservedOperandBits_iff w).2 ⟨reserved, h.resolve_left reserved⟩⟩

/-- A word with neither defect is a command (R69). -/
theorem decode_ok_of_no_defect {w : CmdWord} (known : opc w ∉ reservedOpcodes) (clear : w &&& mustBeZero (opc w) = 0) :
    ∃ i, decode w = .ok i := by
  match h : decode w with
  | .ok i => exact ⟨i, rfl⟩
  | .error .reservedOpcode => exact absurd ((decode_reservedOpcode_iff w).1 h) known
  | .error .reservedOperandBits => exact absurd clear ((decode_reservedOperandBits_iff w).1 h).2

end Sys2Proof

namespace Sys2Proof.Proofs
open Sys2Proof.Machine Sys2Proof.Claims

/-- Settles O4: the decoder's two errors are the two defects, either is executed as `ILLEGAL`, and the formats of PADD and PMUL
have no reserved bits. -/
theorem reservedWordsRaiseIllegal : Obligations.ReservedWordsRaiseIllegal := by
  unfold Obligations.ReservedWordsRaiseIllegal
  intro w s
  refine ⟨decode_reservedOpcode_iff w, decode_reservedOperandBits_iff w, fun defect => ?_, fun free => ?_⟩
  · obtain ⟨e, he⟩ := decode_error_of_defect defect
    exact runCommand_illegal s he
  · have known : opc w ∉ reservedOpcodes := by rcases free with h | h <;> rw [h] <;> decide
    have noBits : mustBeZero (opc w) = 0 := by rcases free with h | h <;> rw [h] <;> decide
    exact decode_ok_of_no_defect known (by simp [noBits])

end Sys2Proof.Proofs
end

