-- ==== Sys2Proof/Proofs/PseudoInstructions.lean ====
section
/-! A line and its expansion assemble to the same word (R77). -/

namespace Sys2Proof

/-- The expansion uses the line's operands and no others, so it is refused exactly when the line is. -/
@[simp] theorem expand_wf (l : AsmLine) : l.expand.wf = l.wf := by
  cases l <;> simp [AsmLine.expand, AsmLine.wf]

/-- A pseudo-instruction expands to a command, never to another pseudo-instruction. -/
@[simp] theorem expand_expand (l : AsmLine) : l.expand.expand = l.expand := by
  cases l <;> rfl

theorem assemble_expand (l : AsmLine) : assemble l.expand = assemble l := by
  simp [assemble]

end Sys2Proof

namespace Sys2Proof.Proofs

/-- Settles O7: the command of the right-hand side is the expansion of the pseudo-instruction. -/
theorem pseudoInstructionsAreAliases : Obligations.PseudoInstructionsAreAliases := by
  unfold Obligations.PseudoInstructionsAreAliases
  refine ⟨fun a b => ?_, fun a => ?_, fun p => ?_⟩
  · exact (assemble_expand (.fsub a b)).symm
  · exact (assemble_expand (.fsqr a)).symm
  · exact (assemble_expand (.pdbl p)).symm

end Sys2Proof.Proofs
end

