-- ==== Sys2Proof/Proofs/CommandWords.lean ====
section
/-! The word of a command decodes to it (R61 to R67), a word with a reserved bit set is answered `ILLEGAL` (R163), and the words
and responses that the statements write nibble by nibble. -/

namespace Sys2Proof
open Machine Claims

/-- Every command is what the decoder reads from its word. -/
@[simp] theorem decode_encode (i : Instr) : decode (encode i) = .ok i := by
  cases i <;> simp [decode, encode, readOperands, Format.reservedClear]

/-- Executing a word with a command's opcode and a bit set where that command's format wants 0 (R65, R163). -/
theorem runCommand_reserved {w : CmdWord} {i : Instr} (s : State) (opcode : opc w = i.opcode)
    (nonzero : ¬ i.format.reservedClear w = true) : runCommand w s = .next (answered 0x300 s) := by
  have defect : w &&& mustBeZero (opc w) ≠ 0 := by rwa [opcode, Ne, and_mustBeZero_eq_zero_iff]
  obtain ⟨e, he⟩ := decode_error_of_defect (.inr defect)
  exact runCommand_illegal s he

/-- A word whose first operand byte is written as two nibbles. -/
theorem append_nibbles_byte (o h a : BitVec 4) (b : Byte) : o ++ h ++ a ++ b = packCommand o (pointByte ⟨h, a⟩) b :=
  congrArg (· ++ b) BitVec.append_assoc

/-- A word whose operand bytes are both written as two nibbles. -/
theorem append_nibbles (o h a k b : BitVec 4) :
    o ++ h ++ a ++ k ++ b = packCommand o (pointByte ⟨h, a⟩) (pointByte ⟨k, b⟩) := by
  rw [← append_nibbles_byte]
  exact BitVec.append_assoc

/-- A word of format FW with a nonzero `B`. -/
theorem runCommand_FW_reserved {i : Instr} (wide : i.format = .FW) (a : Byte) {b : Byte} (hb : b ≠ 0) (s : State) :
    runCommand (i.opcode ++ a ++ b) s = .next (answered 0x300 s) := by
  refine runCommand_reserved (i := i) s (opc_packCommand _ a b) ?_
  have field : byteB (i.opcode ++ a ++ b) = b := byteB_packCommand _ a b
  simpa [wide, Format.reservedClear, field] using hb

/-- A word of format FF with a nonzero high nibble. -/
theorem runCommand_FF_reserved {i : Instr} (elements : i.format = .FF) {h k : Elem} (a b : Elem) (hk : h ≠ 0 ∨ k ≠ 0)
    (s : State) : runCommand (i.opcode ++ h ++ a ++ k ++ b) s = .next (answered 0x300 s) := by
  rw [append_nibbles]
  refine runCommand_reserved (i := i) s (opc_packCommand _ _ _) ?_
  simpa [elements, Format.reservedClear, imp_iff_not_or] using hk

/-- A word of format F1 with a nonzero high nibble or a nonzero `B`. -/
theorem runCommand_F1_reserved {i : Instr} (element : i.format = .F1) {h : Elem} (a : Elem) {b : Byte}
    (hb : h ≠ 0 ∨ b ≠ 0) (s : State) : runCommand (i.opcode ++ h ++ a ++ b) s = .next (answered 0x300 s) := by
  rw [append_nibbles_byte]
  refine runCommand_reserved (i := i) s (opc_packCommand _ _ _) ?_
  simpa [element, Format.reservedClear, imp_iff_not_or] using hb

/-- The response to a command whose result is an element: `RESULT[7:4] = 0` (R71, R73). -/
theorem respond_elemResult (e : Elem) (s : State) :
    respond (.ok (elemResult e)) s = .next (answered (0x0#4 ++ 0x0#4 ++ e) s) := by
  have word : okResponse (elemResult e) = 0x0#4 ++ 0x0#4 ++ e := by
    revert e; decide
  rw [respond_ok, word]
  rfl

end Sys2Proof
end

