-- ==== Sys2Proof/Proofs/FieldLaws.lean ====
section
/-! The field laws (R114, R115). A product is a sum of multiples by powers of x, and multiplication by x respects sums; the laws
follow by induction over an element as a polynomial in x. -/

namespace Sys2Proof.Machine

/-! ## Multiplication by x -/

/-- `t` times x: the shift of one pass of `gf_mul` (R105), `MINPOL` taken off where it carries out of the four bits. -/
def timesX (t : Elem) : Elem := (t <<< 1) ^^^ (if t.getLsbD 3 then 3 else 0)

/-- One pass of the loop of `gf_mul` on a pair of elements: the sum takes `t` where the bit of `b` is set, and `t` becomes
`t` times x. -/
theorem gfMulStep_toNat (b acc t : Elem) (i : Nat) :
    gfMulStep b (acc.toNat, t.toNat) i = ((acc ^^^ (if b.getLsbD i then t else 0)).toNat, (timesX t).toNat) := by
  have shift : (gfMulStep b (acc.toNat, t.toNat) i).2 = (timesX t).toNat := by
    simp only [gfMulStep]
    revert t
    decide
  refine Prod.ext ?_ shift
  cases h : b.getLsbD i <;> simp [gfMulStep, h]

/-- A product as the sum of the multiples of `a` by the powers of x in `b`. -/
theorem gfMul_eq_sum (a b : Elem) :
    gfMul a b = (if b.getLsbD 0 then a else 0) ^^^ (if b.getLsbD 1 then timesX a else 0) ^^^
      (if b.getLsbD 2 then timesX (timesX a) else 0) ^^^ (if b.getLsbD 3 then timesX (timesX (timesX a)) else 0) := by
  have start : ((0 : Nat), a.toNat) = ((0 : Elem).toNat, a.toNat) := rfl
  have mask (r : Elem) : BitVec.ofNat 4 (r.toNat &&& 0xF) = r := by revert r; decide
  simp only [gfMul, List.foldl_cons, List.foldl_nil, start, gfMulStep_toNat, mask]
  simp

@[simp] theorem timesX_zero : timesX 0#4 = 0#4 := rfl

/-- Multiplication by x respects sums. -/
theorem timesX_xor (a b : Elem) : timesX (a ^^^ b) = timesX a ^^^ timesX b := by
  revert a b; decide

/-- x^4 = x + 1 (R5). -/
theorem timesX_four (a : Elem) : timesX (timesX (timesX (timesX a))) = timesX a ^^^ a := by
  revert a; decide

@[simp] theorem one_gfMul (a : Elem) : gfMul 1#4 a = a := by
  revert a; decide

/-- An element is a polynomial in x, the sum that is its product with 1: what holds of 0 and 1, and of sums
and multiples by x of elements it holds of, holds of every element. -/
theorem elem_induction {P : Elem → Prop} (zero : P 0#4) (one : P 1#4) (mulX : ∀ a, P a → P (timesX a))
    (add : ∀ a b, P a → P b → P (a ^^^ b)) (a : Elem) : P a := by
  have term (c : Bool) {t : Elem} (ht : P t) : P (if c then t else 0) := by cases c <;> assumption
  have x1 := mulX 1 one
  have x2 := mulX _ x1
  have x3 := mulX _ x2
  rw [← one_gfMul a, gfMul_eq_sum]
  exact add _ _ (add _ _ (add _ _ (term _ one) (term _ x1)) (term _ x2)) (term _ x3)

/-! ## Products by the second factor -/

@[simp] theorem gfMul_zero (a : Elem) : gfMul a 0#4 = 0#4 := by simp [gfMul_eq_sum]

@[simp] theorem gfMul_one (a : Elem) : gfMul a 1#4 = a := by simp [gfMul_eq_sum]

/-- A multiple by a bit respects sums of bits. -/
theorem ite_xor_bit (x y : Bool) (t : Elem) :
    (if x ^^ y then t else 0) = (if x then t else 0) ^^^ (if y then t else 0) := by
  cases x <;> cases y <;> simp

/-- A multiple by a bit respects sums of elements. -/
theorem ite_xor_elem (c : Bool) (t u : Elem) :
    (if c then t ^^^ u else 0) = (if c then t else 0) ^^^ (if c then u else 0) := by
  cases c <;> simp

theorem gfMul_xor (a b c : Elem) : gfMul a (b ^^^ c) = gfMul a b ^^^ gfMul a c := by
  simp only [gfMul_eq_sum, BitVec.getLsbD_xor, ite_xor_bit]
  ac_rfl

theorem gfMul_timesX (a b : Elem) : gfMul a (timesX b) = timesX (gfMul a b) := by
  have bits : (timesX b).getLsbD 0 = b.getLsbD 3 ∧ (timesX b).getLsbD 1 = (b.getLsbD 0 ^^ b.getLsbD 3) ∧
      (timesX b).getLsbD 2 = b.getLsbD 1 ∧ (timesX b).getLsbD 3 = b.getLsbD 2 := by
    revert b; decide
  obtain ⟨b0, b1, b2, b3⟩ := bits
  have term (c : Bool) (t : Elem) : timesX (if c then t else 0) = if c then timesX t else 0 := by
    cases c <;> simp
  simp only [gfMul_eq_sum, b0, b1, b2, b3, timesX_xor, term, timesX_four, ite_xor_bit, ite_xor_elem]
  ac_rfl

/-! ## The laws -/

@[simp] theorem zero_gfMul (a : Elem) : gfMul 0#4 a = 0#4 := by
  induction a using elem_induction with
  | zero => rfl
  | one => rfl
  | mulX a ih => rw [gfMul_timesX, ih, timesX_zero]
  | add a b iha ihb => rw [gfMul_xor, iha, ihb]; rfl

theorem timesX_gfMul (a b : Elem) : gfMul (timesX a) b = timesX (gfMul a b) := by
  induction b using elem_induction with
  | zero => simp
  | one => simp
  | mulX b ih => rw [gfMul_timesX, gfMul_timesX, ih]
  | add b c ihb ihc => rw [gfMul_xor, gfMul_xor, ihb, ihc, timesX_xor]

theorem xor_gfMul (a b c : Elem) : gfMul (a ^^^ b) c = gfMul a c ^^^ gfMul b c := by
  induction c using elem_induction with
  | zero => simp
  | one => simp
  | mulX c ih => rw [gfMul_timesX, gfMul_timesX, gfMul_timesX, ih, timesX_xor]
  | add c d ihc ihd => rw [gfMul_xor, gfMul_xor, gfMul_xor, ihc, ihd]; ac_rfl

theorem gfMul_comm (a b : Elem) : gfMul a b = gfMul b a := by
  induction b using elem_induction with
  | zero => simp
  | one => simp
  | mulX b ih => rw [gfMul_timesX, timesX_gfMul, ih]
  | add b c ihb ihc => rw [gfMul_xor, xor_gfMul, ihb, ihc]

theorem gfMul_assoc (a b c : Elem) : gfMul (gfMul a b) c = gfMul a (gfMul b c) := by
  induction c using elem_induction with
  | zero => simp
  | one => simp
  | mulX c ih => rw [gfMul_timesX, gfMul_timesX, gfMul_timesX, ih]
  | add c d ihc ihd => rw [gfMul_xor, gfMul_xor, gfMul_xor, ihc, ihd]

end Sys2Proof.Machine

namespace Sys2Proof.Proofs
open Sys2Proof.Machine

/-- Settles O36: addition is XOR. -/
theorem additionLaws : Obligations.AdditionLaws := by
  unfold Obligations.AdditionLaws
  intro a b c
  exact ⟨BitVec.xor_comm a b, BitVec.xor_assoc a b c, BitVec.xor_self, BitVec.xor_zero⟩

/-- Settles O37: commutativity and associativity by induction over a factor as a polynomial in x. -/
theorem multiplicationLaws : Obligations.MultiplicationLaws := by
  unfold Obligations.MultiplicationLaws
  intro a b c
  exact ⟨gfMul_comm a b, gfMul_assoc a b c, gfMul_xor a b c, gfMul_one a, gfMul_zero a⟩

end Sys2Proof.Proofs
end

