-- ==== Sys2Proof/Proofs/Reduction.lean ====
section
/-! The degree of a natural number as a polynomial (R101), carry-less products as sums, and the remainder that the loop of
`gf_red` leaves (R107). -/

namespace Sys2Proof.Machine
open Sys2Proof.Safety

/-! ## Degrees -/

theorem lt_two_pow_bitlen (v : Nat) : v < 2 ^ bitlen v := by
  by_cases hv : v = 0
  · simp [hv]
  · rw [bitlen_pos hv]
    exact Nat.lt_log2_self

theorem bitlen_le_of_lt_two_pow {v n : Nat} (h : v < 2 ^ n) : bitlen v ≤ n := by
  by_cases hv : v = 0
  · simp [hv]
  · rw [bitlen_pos hv]
    exact (Nat.log2_lt hv).2 h

/-- The result byte of a degree is the degree in two's complement (R102). -/
theorem degreeResult_deg (v : Nat) : degreeResult (deg v) = BitVec.ofInt 8 (deg v) := by
  by_cases hv : v = 0
  · subst hv
    rfl
  · rw [deg_pos hv, degreeResult, if_neg (by omega), Int.toNat_natCast, BitVec.ofInt_natCast]

/-! ## Carry-less products -/

/-- One step of `clmul` (R118). -/
def clmulStep (a b acc i : Nat) : Nat := if b.testBit i then acc ^^^ (a <<< i) else acc

theorem clmulStep_eq_xor (a b acc i : Nat) : clmulStep a b acc i = acc ^^^ (if b.testBit i then a <<< i else 0) := by
  cases h : b.testBit i <;> simp [clmulStep, h]

theorem clmul_eq_foldl (a b : Nat) : clmul a b = (List.range 8).foldl (clmulStep a b) 0 := rfl

theorem foldl_clmulStep_xor (a b c : Nat) (l : List Nat) (x y : Nat) :
    l.foldl (clmulStep a (b ^^^ c)) (x ^^^ y) = l.foldl (clmulStep a b) x ^^^ l.foldl (clmulStep a c) y := by
  induction l generalizing x y with
  | nil => rfl
  | cons i l ih =>
    have head : clmulStep a (b ^^^ c) (x ^^^ y) i = clmulStep a b x i ^^^ clmulStep a c y i := by
      have bit : (if (b ^^^ c).testBit i then a <<< i else 0) =
          (if b.testBit i then a <<< i else 0) ^^^ (if c.testBit i then a <<< i else 0) := by
        rw [Nat.testBit_xor]
        cases b.testBit i <;> cases c.testBit i <;> simp
      simp only [clmulStep_eq_xor, bit]
      ac_rfl
    rw [List.foldl_cons, head, ih, List.foldl_cons, List.foldl_cons]

theorem clmul_xor (a b c : Nat) : clmul a (b ^^^ c) = clmul a b ^^^ clmul a c :=
  foldl_clmulStep_xor a b c (List.range 8) 0 0

theorem clmul_two_pow (a : Nat) {k : Nat} (hk : k < 8) : clmul a (2 ^ k) = a <<< k := by
  simp only [clmul, Nat.testBit_two_pow]
  interval_cases k <;> simp [List.range_succ]

@[simp] theorem clmul_zero (a : Nat) : clmul a 0 = 0 := by simp [clmul]

/-! ## The remainder -/

/-- Two numbers with the same leading bit have a sum of lower degree. -/
theorem xor_lt_two_pow_of_testBit {x y n : Nat} (hx : x < 2 ^ (n + 1)) (hy : y < 2 ^ (n + 1)) (hxn : x.testBit n = true)
    (hyn : y.testBit n = true) : x ^^^ y < 2 ^ n := by
  refine Nat.lt_pow_two_of_testBit _ fun i hi => ?_
  obtain rfl | above := Nat.eq_or_lt_of_le hi
  · simp [hxn, hyn]
  · exact Nat.testBit_lt_two_pow ((Nat.xor_lt_two_pow hx hy).trans_le (Nat.pow_le_pow_right (by omega) above))

/-- One pass of the loop of `gf_red` takes the leading bit off. -/
theorem xor_minpol_lt {v : Nat} (hv : 16 ≤ v) : v ^^^ (Config.minpol <<< (Nat.log2 v - 4)) < 2 ^ Nat.log2 v := by
  have big : 4 ≤ Nat.log2 v := by
    rw [Nat.le_log2 (by omega)]
    exact hv
  obtain ⟨k, hk⟩ := Nat.exists_eq_add_of_le' big
  refine xor_lt_two_pow_of_testBit Nat.lt_log2_self ?_ (Nat.testBit_log2 (by omega)) ?_
  · rw [hk, Nat.add_sub_cancel, Nat.shiftLeft_eq, pow_add, pow_add, mul_comm]
    have := Nat.two_pow_pos k
    simp only [Config.minpol]
    omega
  · simpa [hk, Config.minpol, Nat.testBit_shiftLeft] using (by decide : Nat.testBit 19 4 = true)

/-- An element is its own remainder. -/
theorem gfRedLoop_remainder_of_lt (m fuel : Nat) {v : Nat} (hv : v < 16) :
    ∃ (q : Nat) (r : Elem), q < 2 ^ m ∧ v = clmul Config.minpol q ^^^ r.toNat ∧ gfRedLoop fuel v = .ok r := by
  refine ⟨0, BitVec.ofNat 4 v, Nat.two_pow_pos m, ?_, gfRedLoop_small fuel hv⟩
  rw [clmul_zero, Nat.zero_xor, BitVec.toNat_ofNat, Nat.mod_eq_of_lt hv]

/-- With fuel for `m` passes the loop of `gf_red` takes a number of at most `m + 4` bits to its remainder by `MINPOL`. -/
theorem gfRedLoop_remainder {m : Nat} (hm : m ≤ 8) {fuel : Nat} (hf : m ≤ fuel) {v : Nat} (hv : v < 2 ^ (m + 4)) :
    ∃ (q : Nat) (r : Elem), q < 2 ^ m ∧ v = clmul Config.minpol q ^^^ r.toNat ∧ gfRedLoop fuel v = .ok r := by
  induction m generalizing fuel v with
  | zero => exact gfRedLoop_remainder_of_lt 0 fuel hv
  | succ m ih =>
    obtain small | big := Nat.lt_or_ge v 16
    · exact gfRedLoop_remainder_of_lt (m + 1) fuel small
    obtain ⟨fuel, rfl⟩ := Nat.exists_eq_add_of_le' (show 1 ≤ fuel by omega)
    have nonzero : v ≠ 0 := by omega
    have degree : Nat.log2 v < m + 5 := (Nat.log2_lt nonzero).2 hv
    obtain ⟨k, hk⟩ : ∃ k, k = Nat.log2 v - 4 := ⟨_, rfl⟩
    have pass : gfRedLoop (fuel + 1) v = gfRedLoop fuel (v ^^^ (Config.minpol <<< k)) := by
      rw [gfRedLoop_big fuel big, deg_pos nonzero, hk]
      congr
      omega
    have lower : v ^^^ (Config.minpol <<< k) < 2 ^ (m + 4) :=
      hk ▸ (xor_minpol_lt big).trans_le (Nat.pow_le_pow_right (by omega) (by omega))
    obtain ⟨q, r, hq, split, run⟩ := ih (fuel := fuel) (by omega) (by omega) lower
    refine ⟨q ^^^ 2 ^ k, r, ?_, ?_, pass.trans run⟩
    · exact Nat.xor_lt_two_pow (hq.trans (Nat.pow_lt_pow_right (by omega) (by omega)))
        (Nat.pow_lt_pow_right (by omega) (by omega))
    · rw [clmul_xor, clmul_two_pow _ (by omega), Nat.xor_right_comm, ← split, Nat.xor_assoc, Nat.xor_self, Nat.xor_zero]

/-- `gf_red` of a wide operand: the remainder by `MINPOL`, which the fuel always reaches (R107). -/
theorem gfRed_remainder {v : Nat} (hv : v < 2 ^ 8) :
    ∃ (q : Nat) (r : Elem), q < 16 ∧ v = clmul Config.minpol q ^^^ r.toNat ∧ gfRed v = .ok r := by
  have length : bitlen v ≤ 8 := bitlen_le_of_lt_two_pow hv
  have bound : v < 2 ^ (bitlen v - 4 + 4) :=
    (lt_two_pow_bitlen v).trans_le (Nat.pow_le_pow_right (by omega) (by omega))
  obtain ⟨q, r, hq, split, run⟩ := gfRedLoop_remainder (by omega) (Nat.sub_le _ _) bound
  exact ⟨q, r, hq.trans_le (Nat.pow_le_pow_right (by omega) (by omega : bitlen v - 4 ≤ 4)), split, run⟩

end Sys2Proof.Machine
end

