-- ==== Sys2Proof/Proofs/Inversion.lean ====
section
/-! What `gf_inv` and `gf_div` compute (R109, R112), by products. -/

namespace Sys2Proof.Machine

/-- The loop of `gf_inv` ends within its fuel on each of the fifteen nonzero elements, with the element whose product with the
operand is 1. -/
theorem gfInv_of_ne_zero {a : Elem} (ha : a ≠ 0) : ∃ r, gfInv a = .ok r ∧ gfMul a r = 1#4 := by
  revert a; decide

/-- An inverse, where `gf_inv` answers one, has the product 1 with the operand. -/
theorem gfMul_gfInv {a r : Elem} (h : gfInv a = .ok r) : gfMul a r = 1#4 := by
  by_cases ha : a = 0
  · rw [ha, gfInv_zero] at h
    cases h
  · obtain ⟨i, hi, unit⟩ := gfInv_of_ne_zero ha
    rw [hi] at h
    cases h
    exact unit

/-- The element whose product with `a` is 1 is the inverse. -/
theorem gfInv_of_gfMul {a r : Elem} (unit : gfMul a r = 1#4) : gfInv a = .ok r := by
  have ha : a ≠ 0 := by
    rintro rfl
    simp at unit
  obtain ⟨i, hi, unit'⟩ := gfInv_of_ne_zero ha
  have same : i = r :=
    calc i = gfMul i (gfMul a r) := by rw [unit, gfMul_one]
      _ = gfMul (gfMul a i) r := by rw [← gfMul_assoc, gfMul_comm i a]
      _ = r := by rw [unit', one_gfMul]
  rw [hi, same]

theorem gfInv_involutive {a r : Elem} (h : gfInv a = .ok r) : gfInv r = .ok a :=
  gfInv_of_gfMul ((gfMul_comm r a).trans (gfMul_gfInv h))

/-- A quotient by a nonzero divisor, and that its product with the divisor is the dividend. -/
theorem gfDiv_of_ne_zero (a : Elem) {b : Elem} (hb : b ≠ 0) : ∃ q, gfDiv a b = .ok q ∧ gfMul q b = a := by
  obtain ⟨i, hi, unit⟩ := gfInv_of_ne_zero hb
  exact ⟨gfMul a i, gfDiv_of_inv hi, by rw [gfMul_assoc, gfMul_comm i b, unit, gfMul_one]⟩

end Sys2Proof.Machine
end

