-- ==== Sys2Proof/Proofs/FieldCommands.lean ====
section
/-! The six commands of the field unit: the word, the refusal, the result (R102 to R113). -/

namespace Sys2Proof.Machine
open Sys2Proof.Claims

/-- A command whose computation gives an element answers it. -/
theorem exec_of_elem {i : Instr} {s : State} {c : Calc Elem} {e : Elem}
    (computation : resultOfInstr s.ca i = elemResult <$> c) (value : c = .ok e) : exec i s = .next (answered (0x0#4 ++ 0x0#4 ++ e) s) := by
  rw [exec_eq_respond, computation, value]
  exact respond_elemResult e s

/-- A command whose computation raises a status answers that status (R164). -/
theorem exec_of_raise {α : Type} {i : Instr} {s : State} {result : α → Byte} {c : Calc α} {e : ErrorStatus}
    (computation : resultOfInstr s.ca i = result <$> c) (raised : c = raise e) :
    exec i s = .next (answered (errorResponse e) s) := by
  rw [exec_eq_respond, computation, raised]
  rfl

end Sys2Proof.Machine

namespace Sys2Proof.Proofs
open Sys2Proof.Machine Sys2Proof.Claims

/-- Settles O30: the degree is the exponent of the leading bit. -/
theorem fdegCommand : Obligations.FdegCommand := by
  unfold Obligations.FdegCommand
  refine ⟨fun w => decode_encode (.fdeg w), fun a b s hb => runCommand_FW_reserved (i := .fdeg a) rfl a hb s,
    fun w s => ?_⟩
  refine ⟨deg w.toNat, fun zero => by rw [zero]; rfl, fun nonzero => ?_, ?_⟩
  · have hw : w.toNat ≠ 0 := fun h => nonzero (BitVec.eq_of_toNat_eq h)
    rw [deg_pos hw, Int.toNat_natCast]
    exact ⟨Int.natCast_nonneg _, Nat.log2_self_le hw, Nat.lt_log2_self⟩
  · rw [exec_eq_respond, resultOfInstr, degreeResult_deg]
    rfl

/-- Settles O33: the loop of `gf_red` leaves the remainder, for every wide operand within its fuel. -/
theorem fredCommand : Obligations.FredCommand := by
  unfold Obligations.FredCommand
  refine ⟨fun w => decode_encode (.fred w), fun a b s hb => runCommand_FW_reserved (i := .fred a) rfl a hb s,
    fun w s => ?_⟩
  obtain ⟨q, r, hq, split, run⟩ := gfRed_remainder w.isLt
  exact ⟨q, r, hq, split, run, exec_of_elem rfl run⟩

/-- Settles O31: the sum is the XOR of the two low nibbles. -/
theorem faddCommand : Obligations.FaddCommand := by
  unfold Obligations.FaddCommand
  refine ⟨fun a b => ?_, fun h a k b s hk => runCommand_FF_reserved (i := .fadd a b) rfl a b hk s, fun a b s => ?_⟩
  · rw [append_nibbles]
    exact decode_encode (.fadd a b)
  · exact respond_elemResult (gfAdd a b) s

/-- Settles O32: the product is an element, and the source's two products are evaluated. -/
theorem fmulCommand : Obligations.FmulCommand := by
  unfold Obligations.FmulCommand
  refine ⟨fun a b => ?_, fun h a k b s hk => runCommand_FF_reserved (i := .fmul a b) rfl a b hk s, fun a b s => ?_,
    by decide, by decide⟩
  · rw [append_nibbles]
    exact decode_encode (.fmul a b)
  · exact respond_elemResult (gfMul a b) s

/-- Settles O34: the inverse of a nonzero operand is the element whose product with it is 1, a relation that is symmetric. -/
theorem finvCommand : Obligations.FinvCommand := by
  unfold Obligations.FinvCommand
  refine ⟨fun a => ?_, fun h a b s hb => runCommand_F1_reserved (i := .finv a) rfl a hb s,
    fun s => exec_of_raise (e := .div0) rfl gfInv_zero, fun a s ha => ?_, fun a r => gfInv_involutive⟩
  · rw [append_nibbles_byte]
    exact decode_encode (.finv a)
  · obtain ⟨r, run, unit⟩ := gfInv_of_ne_zero ha
    exact ⟨r, unit, run, exec_of_elem rfl run⟩

/-- Settles O35: the dividend times the inverse of the divisor, and the divisor 0 before the dividend is looked at. -/
theorem fdivCommand : Obligations.FdivCommand := by
  unfold Obligations.FdivCommand
  refine ⟨fun a b => ?_, fun h a k b s hk => runCommand_FF_reserved (i := .fdiv a b) rfl a b hk s,
    fun a s => exec_of_raise (e := .div0) rfl (gfDiv_zero a), fun a b s hb => ?_⟩
  · rw [append_nibbles]
    exact decode_encode (.fdiv a b)
  · obtain ⟨q, run, product⟩ := gfDiv_of_ne_zero a hb
    exact ⟨q, product, run, exec_of_elem rfl run⟩

end Sys2Proof.Proofs
end

