-- ==== Sys2Proof/Proofs/Negation.lean ====
section
/-! Negation of points (R133), and PNEG: the word, the refusal, the result (R134). -/

namespace Sys2Proof.Machine

/-- The first coordinate added twice is gone (R133). -/
theorem ptNeg_involutive : Function.Involutive ptNeg := by
  intro p
  have cancel : p.u ^^^ (p.u ^^^ p.v) = p.v := by rw [← BitVec.xor_assoc, BitVec.xor_self, BitVec.zero_xor]
  exact congrArg (Point.mk p.u) cancel

@[simp] theorem ptNeg_identity : ptNeg Point.identity = Point.identity := rfl

end Sys2Proof.Machine

namespace Sys2Proof
open Machine Claims

/-- A word of format P1 with a nonzero `B`. -/
theorem runCommand_P1_reserved {i : Instr} (point : i.format = .P1) (u v : Elem) {b : Byte} (hb : b ≠ 0) (s : State) :
    runCommand (i.opcode ++ u ++ v ++ b) s = .next (answered 0x300 s) := by
  rw [append_nibbles_byte]
  refine runCommand_reserved (i := i) s (opc_packCommand _ _ _) ?_
  simpa [point, Format.reservedClear] using hb

/-- The response to a command whose result is a point: its two coordinates (R71, R73). -/
theorem respond_pointResult (t : Point) (s : State) :
    respond (.ok (pointResult t)) s = .next (answered (0x0#4 ++ t.u ++ t.v) s) := by
  have word : okResponse (pointResult t) = 0x0#4 ++ t.u ++ t.v :=
    (BitVec.append_assoc (x₁ := 0x0#4) (x₂ := t.u) (x₃ := t.v)).symm
  rw [respond_ok, word]
  rfl

end Sys2Proof

namespace Sys2Proof.Proofs
open Sys2Proof.Machine Sys2Proof.Claims

/-- Settles O46: the first coordinate is kept, so the second negation adds it to the second coordinate again. -/
theorem negationIsAnInvolution : Obligations.NegationIsAnInvolution := by
  unfold Obligations.NegationIsAnInvolution
  exact ⟨fun _ _ => rfl, ptNeg_involutive, ptNeg_identity⟩

/-- Settles O45: the negative is computed for every byte, with no check of the point. -/
theorem pnegCommand : Obligations.PnegCommand := by
  unfold Obligations.PnegCommand
  refine ⟨fun u v => ?_, fun u v b s hb => runCommand_P1_reserved (i := .pneg ⟨u, v⟩) rfl u v hb s, fun u v s => ?_⟩
  · rw [append_nibbles_byte]
    exact decode_encode (.pneg ⟨u, v⟩)
  · exact respond_pointResult (ptNeg ⟨u, v⟩) s

end Sys2Proof.Proofs
end

