-- ==== Sys2Proof/Proofs/PointAddition.lean ====
section
/-! The tests of point addition by coordinates, and the values of its last two cases by their slope (R131). -/

namespace Sys2Proof.Machine

/-- The test of case 3 of R131, by coordinates. -/
theorem eq_ptNeg_iff (p q : Point) : p = ptNeg q ↔ p.u = q.u ∧ p.v ^^^ q.v = p.u := by
  obtain ⟨u, v⟩ := p
  simp only [ptNeg, gfAdd, Point.mk.injEq]
  refine and_congr_right fun hu => ?_
  rw [← hu, ← BitVec.xor_left_inj q.v, BitVec.xor_assoc, BitVec.xor_self, BitVec.xor_zero]

/-- One of two points is the negative of the other exactly when the other is its negative. -/
theorem eq_ptNeg_comm {p q : Point} : p = ptNeg q ↔ q = ptNeg p :=
  eq_comm.trans ptNeg_involutive.eq_iff

/-- Case 4 of R131 along the tangent whose slope is `p.u` plus the quotient `k`. -/
theorem ptDouble_of_gfDiv (ca : Elem) {p : Point} {k m u : Elem} (quotient : gfDiv p.v p.u = .ok k)
    (slope : m = p.u ^^^ k) (first : u = gfMul m m ^^^ m ^^^ ca) :
    ptDouble ca p = .ok ⟨u, gfMul m p.u ^^^ gfMul m u ^^^ u ^^^ p.v⟩ := by
  subst slope first
  rw [ptDouble, quotient]
  rfl

/-- Case 5 of R131 along the chord of slope `m`. -/
theorem ptChord_of_gfDiv (ca : Elem) {p q : Point} {m u : Elem} (slope : gfDiv (q.v ^^^ p.v) (q.u ^^^ p.u) = .ok m)
    (first : u = gfMul m m ^^^ m ^^^ ca ^^^ p.u ^^^ q.u) :
    ptChord ca p q = .ok ⟨u, gfMul m (u ^^^ p.u) ^^^ u ^^^ p.v⟩ := by
  subst first
  simp only [ptChord, gfAdd, slope]
  rfl

/-- Case 5 of R131 has no value at equal first coordinates, whose difference is the divisor of the slope (R139). -/
theorem ptChord_of_u_eq (ca : Elem) {p q : Point} (h : p.u = q.u) : ptChord ca p q = raise .div0 := by
  have divisor : gfAdd q.u p.u = 0 := by rw [h]; exact BitVec.xor_self
  rw [ptChord, divisor]
  rfl

/-- Doubling a point of nonzero first coordinate, with the quotient of the slope by its product. -/
theorem ptAdd_self_of_u_ne_zero (ca : Elem) {p : Point} (hu : p.u ≠ 0) :
    ∃ k m u v : Elem, gfMul k p.u = p.v ∧ m = p.u ^^^ k ∧ u = gfMul m m ^^^ m ^^^ ca ∧
      v = gfMul m p.u ^^^ gfMul m u ^^^ u ^^^ p.v ∧ ptAdd ca p p = .ok ⟨u, v⟩ := by
  have proper : p ≠ Point.identity := fun h => hu (congrArg Point.u h)
  have notNegative : p ≠ ptNeg p := fun h => hu (by simpa using ((eq_ptNeg_iff p p).1 h).2.symm)
  obtain ⟨k, quotient, product⟩ := gfDiv_of_ne_zero p.v hu
  exact ⟨k, _, _, _, product, rfl, rfl, rfl,
    (ptAdd_double ca proper notNegative).trans (ptDouble_of_gfDiv ca quotient rfl rfl)⟩

/-- Adding two points of different first coordinates, with the slope by its product. -/
theorem ptAdd_of_u_ne (ca : Elem) {p q : Point} (hp : p ≠ Point.identity) (hq : q ≠ Point.identity) (hu : p.u ≠ q.u) :
    ∃ m u v : Elem, gfMul m (q.u ^^^ p.u) = q.v ^^^ p.v ∧ u = gfMul m m ^^^ m ^^^ ca ^^^ p.u ^^^ q.u ∧
      v = gfMul m (u ^^^ p.u) ^^^ u ^^^ p.v ∧ ptAdd ca p q = .ok ⟨u, v⟩ := by
  have divisor : q.u ^^^ p.u ≠ 0 := fun h => hu (BitVec.xor_eq_zero_iff.1 h).symm
  have notNegative : p ≠ ptNeg q := fun h => hu ((eq_ptNeg_iff p q).1 h).1
  have chord : ptAdd ca p q = ptChord ca p q :=
    ptAdd_chord ca hp hq notNegative (mt eq_ptNeg_comm.2 notNegative) fun h => hu (congrArg Point.u h)
  obtain ⟨m, slope, product⟩ := gfDiv_of_ne_zero (q.v ^^^ p.v) divisor
  exact ⟨m, _, _, product, rfl, rfl, chord.trans (ptChord_of_gfDiv ca slope rfl)⟩

/-- Two points of one first coordinate that are neither equal nor negatives have no sum (R139). -/
theorem ptAdd_of_u_eq (ca : Elem) {p q : Point} (hp : p ≠ Point.identity) (hq : q ≠ Point.identity) (hu : p.u = q.u)
    (different : p ≠ q) (notNegative : p ≠ ptNeg q) : ptAdd ca p q = raise .div0 := by
  rw [ptAdd_chord ca hp hq notNegative (mt eq_ptNeg_comm.2 notNegative) different, ptChord_of_u_eq ca hu]

end Sys2Proof.Machine

namespace Sys2Proof.Proofs
open Sys2Proof.Machine

/-- Settles O43: the coordinates decide which case of R131 applies, and the divisor of its slope is 0 in the last clause only. -/
theorem pointAdditionCases : Obligations.PointAdditionCases := by
  unfold Obligations.PointAdditionCases
  intro ca p q
  refine ⟨?identityLeft, ?identityRight, ?negatives, ?doubling, ?generic, ?zeroDivisor⟩
  case identityLeft =>
    rintro rfl
    exact ptAdd_identity_left ca q
  case identityRight =>
    rintro - rfl
    exact ptAdd_identity_right ca p
  case negatives =>
    intro hp hq hu sum
    exact ptAdd_negatives ca hp hq (.inl ((eq_ptNeg_iff p q).2 ⟨hu, sum⟩))
  case doubling =>
    rintro rfl hu
    exact ptAdd_self_of_u_ne_zero ca hu
  case generic => exact ptAdd_of_u_ne ca
  case zeroDivisor =>
    intro hp hq hu different sum
    exact ptAdd_of_u_eq ca hp hq hu different fun h => sum ((eq_ptNeg_iff p q).1 h).2

end Sys2Proof.Proofs
end

