-- ==== Sys2Proof/Proofs/Exceptions.lean ====
section
/-! The raising of an error status (R164). -/

namespace Sys2Proof.Machine
open Claims

/-- R164: the raised status' code over a zero `RESULT` (decision D16) in `RSPR`, DONE in `PHASE`, and the rest of the state kept. -/
theorem respond_raise_answered (e : ErrorStatus) (s : State) :
    respond (raise e) s = .next (answered ((Status.error e).code ++ 0x00#8) s) := by
  rw [respond_raise]
  rfl

end Sys2Proof.Machine

namespace Sys2Proof.Proofs
open Sys2Proof.Machine

/-- Settles O28: R164 for each status, the three codes being 0x1, 0x2 and 0x3 (R72). -/
theorem errorChangesOnlyTheResponse : Obligations.ErrorChangesOnlyTheResponse := by
  unfold Obligations.ErrorChangesOnlyTheResponse
  intro s
  exact ⟨respond_raise_answered .div0 s, respond_raise_answered .badScalar s, respond_raise_answered .illegal s⟩

end Sys2Proof.Proofs
end

