-- ==== Sys2Proof/Proofs/Reset.lean ====
section
/-! What writes `CA` and looks at the strap `cfg_a` (R191, R202), and the engine after a reset (R192). -/

namespace Sys2Proof.Machine
open Sys2Proof.Safety

/-- R202: of the steps of R47 to R50 only the reset writes `CA`. -/
theorem step_without_reset_ca {s t : State} (low : ∀ x rest, s.inputs = x :: rest → x.rst = false)
    (h : step s = .next t) : t.ca = s.ca := by
  obtain ⟨x, rest, hin, hrst, -⟩ | ⟨_, _, -, -, -, -, rfl⟩ | ⟨_, _, -, -, -, rfl⟩ | ⟨_, _, _, -, -, -, -, rfl⟩ | rfl :=
    step_next_cases h
  case inl => simp [low x rest hin] at hrst
  all_goals rfl

/-- R191: with `rst` low the strap is not looked at, in any phase. -/
theorem stepAt_strap {x : Sample} (s : State) (a : Elem) (low : x.rst = false) :
    stepAt { x with cfgA := a } s = stepAt x s := by
  cases hp : s.phase with
  | idle => rw [stepAt_idle low hp, stepAt_idle (x := { x with cfgA := a }) low hp]
  | busy w => rw [stepAt_busy low hp, stepAt_busy (x := { x with cfgA := a }) low hp]
  | done r => rw [stepAt_done low hp, stepAt_done (x := { x with cfgA := a }) low hp]

/-- An IDLE engine waits at a sample at which the host offers nothing (R192). -/
theorem step_idle_no_offer {s : State} {x : Sample} {rest : List Sample} (hin : s.inputs = x :: rest)
    (hr : x.rst = false) (hp : s.phase = .idle) (hv : x.cmdValid = false) :
    step s = .next { s with inputs := rest } := by
  rw [step_sample hin, stepAt_idle (s := { s with inputs := rest }) hr hp, if_neg (by simp [hv])]

end Sys2Proof.Machine

namespace Sys2Proof.Proofs
open Sys2Proof.Machine

/-- Settles O17: a reset takes the strap, no other step writes `CA`, and with `rst` low no phase looks at the strap. -/
theorem coefficientWrittenOnlyByReset : Obligations.CoefficientWrittenOnlyByReset := by
  unfold Obligations.CoefficientWrittenOnlyByReset
  refine ⟨?sample, ?quiet, ?strap⟩
  case sample =>
    intro s t x rest hin h
    cases hrst : x.rst with
    | true =>
      rw [step_rst hin hrst] at h
      cases h
      rfl
    | false =>
      refine step_without_reset_ca (fun y _ hy => ?_) h
      obtain ⟨rfl, -⟩ := List.cons.inj (hin.symm.trans hy)
      exact hrst
  case quiet =>
    intro s t hquiet h
    exact step_without_reset_ca (fun _ _ hy => by simp [hquiet] at hy) h
  case strap =>
    intro s x rest a hin low
    calc step s
      _ = stepAt x { s with inputs := rest } := step_sample hin
      _ = stepAt { x with cfgA := a } { s with inputs := rest } := (stepAt_strap _ a low).symm
      _ = step { s with inputs := { x with cfgA := a } :: rest } :=
        (step_sample (s := { s with inputs := { x with cfgA := a } :: rest }) rfl).symm

/-- Settles O26: the reset state is IDLE, and an IDLE engine without an offer waits. -/
theorem stateAfterReset : Obligations.StateAfterReset := by
  unfold Obligations.StateAfterReset
  refine ⟨fun a0 => ?_, Config.resetStrap, rfl⟩
  have idle : (State.afterReset a0).phase = .idle := rfl
  refine ⟨rfl, idle, (cmdReady_iff _ _).2 ⟨idle, rfl⟩, ?notValid, ?quiet, ?noOffer⟩
  case notValid =>
    rw [Bool.eq_false_iff, ne_eq, rspValid_iff]
    simp [idle]
  case quiet => exact step_quiet_not_busy rfl (by simp [idle])
  case noOffer =>
    intro x rest low notOffered
    exact step_idle_no_offer rfl low idle notOffered

end Sys2Proof.Proofs
end

