-- ==== Sys2Proof/Proofs/RoundTrip.lean ====
section
/-! Decoder and encoder are inverse to each other (R60 to R67, R75). -/

namespace Sys2Proof
open Machine

theorem readOperands_eq_ok_iff {f : Format} {w : CmdWord} {i j : Instr} :
    readOperands f w i = .ok j ↔ f.reservedClear w = true ∧ i = j := by
  cases h : f.reservedClear w <;> simp [readOperands, h]

theorem elemByte_lowNibble {b : Byte} (h : highNibble b = 0) : elemByte (lowNibble b) = b := by
  revert b; decide

/-- A word with the fields of a packed one is the packed one. -/
theorem packCommand_eq {w : CmdWord} {o : BitVec 4} {a b : Byte} (ho : (opc w).toNat = o.toNat) (ha : a = byteA w)
    (hb : b = byteB w) : packCommand o a b = w := by
  rw [ha, hb, ← BitVec.eq_of_toNat_eq ho, packCommand_fields]

/-- The bytes of a word of format FF whose reserved bits are clear are the bytes of its elements. -/
theorem elemBytes_of_clear_FF {w : CmdWord} (clear : Format.FF.reservedClear w = true) :
    elemByte (lowNibble (byteA w)) = byteA w ∧ elemByte (lowNibble (byteB w)) = byteB w := by
  simp only [Format.reservedClear, Bool.and_eq_true, beq_iff_eq] at clear
  exact ⟨elemByte_lowNibble clear.1, elemByte_lowNibble clear.2⟩

/-- Byte `B` of a word of a format without a second operand is 0 where the reserved bits are clear. -/
theorem zero_eq_byteB_of_clear {f : Format} {w : CmdWord} (noB : f = .FW ∨ f = .F1 ∨ f = .P1)
    (clear : f.reservedClear w = true) : 0x00 = byteB w := by
  rcases noB with rfl | rfl | rfl <;> simp_all [Format.reservedClear]

/-- The word of a command that the decoder read is the word it read it from (R75). -/
theorem encode_of_decode {w : CmdWord} {i : Instr} (h : decode w = .ok i) : encode i = w := by
  unfold decode at h
  split at h
  case h_11 => cases h
  all_goals obtain ⟨clear, rfl⟩ := readOperands_eq_ok_iff.1 h
  case h_1 ho => exact packCommand_eq ho rfl (zero_eq_byteB_of_clear (by simp) clear)
  case h_2 ho => exact packCommand_eq ho (elemBytes_of_clear_FF clear).1 (elemBytes_of_clear_FF clear).2
  case h_3 ho => exact packCommand_eq ho (elemBytes_of_clear_FF clear).1 (elemBytes_of_clear_FF clear).2
  case h_4 ho => exact packCommand_eq ho rfl (zero_eq_byteB_of_clear (by simp) clear)
  case h_5 ho =>
    have high : highNibble (byteA w) = 0 := by simp_all [Format.reservedClear]
    exact packCommand_eq ho (elemByte_lowNibble high) (zero_eq_byteB_of_clear (by simp) clear)
  case h_6 ho => exact packCommand_eq ho (elemBytes_of_clear_FF clear).1 (elemBytes_of_clear_FF clear).2
  case h_7 ho => exact packCommand_eq ho (pointByte_pointOfByte _) (pointByte_pointOfByte _)
  case h_8 ho => exact packCommand_eq ho (pointByte_pointOfByte _) (zero_eq_byteB_of_clear (by simp) clear)
  case h_9 ho => exact packCommand_eq ho (pointByte_pointOfByte _) rfl
  case h_10 ho => exact packCommand_eq ho (pointByte_pointOfByte _) (zero_eq_byteB_of_clear (by simp) clear)

/-- A word decodes to a command exactly when it is the command's word. -/
theorem decode_eq_ok_iff {w : CmdWord} {i : Instr} : decode w = .ok i ↔ w = encode i := by
  refine ⟨fun h => (encode_of_decode h).symm, ?_⟩
  rintro rfl
  exact decode_encode i

end Sys2Proof

namespace Sys2Proof.Proofs
open Sys2Proof.Machine

/-- Settles O1: each field of a packed word reads back, and the encoder leaves every reserved bit clear. -/
theorem decodeInvertsEncode : Obligations.DecodeInvertsEncode := by
  unfold Obligations.DecodeInvertsEncode
  exact decode_encode

/-- Settles O2: the operand fields and the reserved bits of a format are together the whole word. -/
theorem encodeInvertsDecode : Obligations.EncodeInvertsDecode := by
  unfold Obligations.EncodeInvertsDecode
  intro w i
  exact encode_of_decode

/-- Settles O5: each command's word is packed from its fields, and the two refused words have a defect. -/
theorem writtenOutWordsDecode : Obligations.WrittenOutWordsDecode := by
  unfold Obligations.WrittenOutWordsDecode
  refine ⟨?_, ?_, ?_, ?_, ?_, ?_, ?_, ?_, ?_⟩
  case refine_8 => exact (decode_reservedOpcode_iff _).2 (by decide)
  case refine_9 => exact (decode_reservedOperandBits_iff _).2 (by decide)
  all_goals exact decode_eq_ok_iff.2 (by decide)

end Sys2Proof.Proofs
end

