-- ==== Sys2Proof/Proofs/ExecFunction.lean ====
section
/-! The execute step is the end of the computation of R73, and what it writes is the response of R73. -/

namespace Sys2Proof.Machine
open Sys2Proof.Safety Sys2Proof.Claims

/-! ## The computation of R73 -/

/-- On the word of a command the `try` part of R73 is the command's computation. -/
theorem resultOf_encode (ca : Elem) (i : Instr) : resultOf ca (encode i) = resultOfInstr ca i := by
  cases i
  case pmul p c =>
    by_cases hc : c = 0#8
    · simp [resultOf, resultOfInstr, encode, hc, raise]
    · simp [resultOf, resultOfInstr, encode, hc]
  all_goals simp [resultOf, resultOfInstr, encode]

/-- On a word that is no command the `try` part of R73 raises `ILLEGAL`. -/
theorem resultOf_of_decode_error (ca : Elem) {w : CmdWord} {e : DecodeError} (h : decode w = .error e) :
    resultOf ca w = raise .illegal := by
  obtain ⟨reserved, -⟩ | ⟨i, opcode, e'⟩ := decode_cases w
  · unfold resultOf
    generalize opc w = o at reserved
    simp only [reservedOpcodes, List.mem_cons, List.not_mem_nil, or_false] at reserved
    rcases reserved with rfl | rfl | rfl | rfl | rfl | rfl <;> rfl
  · have set : ¬ i.format.reservedClear w = true := fun clear => by
      rw [e', readOperands_clear _ _ _ clear] at h
      cases h
    cases i <;>
      simp_all [resultOf, Instr.opcode, Instr.format, Format.reservedClear, imp_iff_not_or]

/-- The execute step ends the computation of R73 on the word in `CMDR`. -/
theorem runCommand_eq_respond (w : CmdWord) (s : State) : runCommand w s = respond (resultOf s.ca w) s := by
  cases h : decode w with
  | ok i => rw [runCommand_ok s h, exec_eq_respond, ← encode_of_decode h, resultOf_encode]
  | error e => rw [runCommand_illegal s h, resultOf_of_decode_error s.ca h, respond_raise]

/-! ## The response of R73 -/

/-- The writes of execute (R48) in the words of the statements. -/
theorem next_complete_iff {r : RspWord} {s t : State} :
    (.next (s.complete r) : Out) = .next t ↔ ∃ r', some r = some r' ∧ t = answered r' s := by
  simp only [Option.some.injEq, exists_eq_left']
  exact ⟨fun h => by cases h; rfl, fun h => by rw [h]; rfl⟩

/-- If a computation of R73 answers, its end writes the response into `RSPR`, and nothing else. -/
theorem respond_eq_next_iff {ca : Elem} {w : CmdWord} {s t : State} :
    respond (resultOf ca w) s = .next t ↔ ∃ r, responseTo ca w = some r ∧ t = answered r s := by
  unfold responseTo
  match resultOf ca w with
  | .ok _ => exact next_complete_iff
  | .error (.raised .illegal) => exact next_complete_iff
  | .error (.raised .badScalar) => exact next_complete_iff
  | .error (.raised .div0) => exact next_complete_iff
  | .error .outOfFuel => simp

/-- The execute step answers exactly with the response of R73. -/
theorem runCommand_eq_next_iff {w : CmdWord} {s t : State} :
    runCommand w s = .next t ↔ ∃ r, responseTo s.ca w = some r ∧ t = answered r s := by
  rw [runCommand_eq_respond, respond_eq_next_iff]

end Sys2Proof.Machine
end

