-- ==== Sys2Proof/Proofs/ResponseSound.lean ====
section
/-! What `RSPR` holds is a response of R70 to R72: the invariant of every step. -/

namespace Sys2Proof.Machine
open Sys2Proof.Safety Sys2Proof.Claims

/-- The invariant speaks of the phase alone. -/
theorem responseSound_congr {s t : State} (h : t.phase = s.phase) : responseSound t = responseSound s := by
  simp only [responseSound, h]

theorem responseSound_of_idle {s : State} (h : s.phase = .idle) : responseSound s = true := by
  simp only [responseSound, h]

theorem responseSound_of_busy {s : State} {w : CmdWord} (h : s.phase = .busy w) : responseSound s = true := by
  simp only [responseSound, h]

/-- A packed response has one of the four statuses, and `RESULT` zero with an error (R72, R164). -/
theorem responseSound_complete_ok (b : Byte) (s : State) : responseSound (s.complete (okResponse b)) = true := by
  simp [responseSound, okResponse, Status.code]

theorem responseSound_raiseStatus (e : ErrorStatus) (s : State) : responseSound (s.raiseStatus e) = true := by
  cases e <;> simp [responseSound, errorResponse, Status.code]

/-- The end of a command leaves a sound response, whatever it computed. -/
theorem responseSound_of_respond {c : Calc Byte} {s t : State} (h : respond c s = .next t) : responseSound t = true := by
  obtain ⟨b, -, e⟩ | ⟨x, -, e⟩ | ⟨-, e⟩ := respond_cases c s <;> rw [e] at h <;> cases h
  · exact responseSound_complete_ok b s
  · exact responseSound_raiseStatus x s

end Sys2Proof.Machine

namespace Sys2Proof.Proofs
open Sys2Proof.Machine

/-- Settles O24: only the execute step writes `RSPR`, and it ends a command. -/
theorem stepKeepsResponseSound : Obligations.StepKeepsResponseSound := by
  unfold Obligations.StepKeepsResponseSound
  intro s t sound h
  obtain ⟨x, rest, -, -, rfl⟩ | ⟨x, rest, -, -, -, -, rfl⟩ | ⟨w, r, -, -, run, -⟩ | ⟨x, rest, r, -, -, -, -, rfl⟩ | rfl :=
    step_next_cases h
  case inl => exact responseSound_of_idle rfl
  case inr.inl => exact responseSound_of_busy rfl
  case inr.inr.inl =>
    rw [runCommand_eq_respond] at run
    exact responseSound_of_respond run
  case inr.inr.inr.inl => exact responseSound_of_idle rfl
  case inr.inr.inr.inr => exact (responseSound_congr rfl).trans sound

/-- Settles O25: the reset state is IDLE. -/
theorem resetResponseSound : Obligations.ResetResponseSound := by
  unfold Obligations.ResetResponseSound
  exact responseSound_of_idle rfl

end Sys2Proof.Proofs
end

