-- ==== Sys2Proof/Proofs/Pins.lean ====
section
/-! The output pins (R41), the command channel (R42) and the execute step of a BUSY engine (R48). -/

namespace Sys2Proof.Machine
open Sys2Proof.Safety

/-- Execute (R48): a BUSY engine that is neither reset nor kept computing runs the word in `CMDR`. -/
theorem step_busy {s : State} {w : CmdWord} (hp : s.phase = .busy w) (may : mayExecute s = true) :
    step s = runCommand w (sampleTaken s) := by
  cases hin : s.inputs with
  | nil =>
    have same : sampleTaken s = s := by rw [sampleTaken, hin, List.tail_nil, ← hin]
    rw [step_quiet hin, stepQuiet, hp, same]
  | cons x rest =>
    have taken : { s with inputs := rest } = sampleTaken s := by simp [sampleTaken, hin]
    simp only [mayExecute, hin, Bool.and_eq_true, Bool.not_eq_true'] at may
    rw [step_sample hin, taken, stepAt_busy (s := sampleTaken s) may.1 hp, if_pos may.2]

/-- A BUSY engine waits at a sample at which it is still computing. -/
theorem step_busy_computing {s : State} {x : Sample} {rest : List Sample} {w : CmdWord} (hin : s.inputs = x :: rest)
    (hr : x.rst = false) (hp : s.phase = .busy w) (hl : x.latDone = false) :
    step s = .next { s with inputs := rest } := by
  rw [step_sample hin, stepAt_busy (s := { s with inputs := rest }) hr hp, if_neg (by simp [hl])]

/-- An IDLE engine leaves IDLE only by the accept step. -/
theorem offer_of_leaves_idle {s t : State} (h : step s = .next t) (idle : s.phase = .idle) (leaves : t.phase ≠ .idle) :
    ∃ x rest, s.inputs = x :: rest ∧ x.rst = false ∧ x.cmdValid = true := by
  obtain ⟨x, rest, -, -, rfl⟩ | ⟨x, rest, hin, hr, -, hv, -⟩ | ⟨w, r, -, hbusy, -⟩ | ⟨x, rest, r, -, -, hdone, -⟩ | rfl :=
    step_next_cases h
  case inl => exact absurd rfl leaves
  case inr.inl => exact ⟨x, rest, hin, hr, hv⟩
  case inr.inr.inl => simp [idle] at hbusy
  case inr.inr.inr.inl => simp [idle] at hdone
  case inr.inr.inr.inr => exact absurd idle leaves

end Sys2Proof.Machine

namespace Sys2Proof.Proofs
open Sys2Proof.Machine

/-- Settles O13: each pin is a test of the phase and of `rst`. -/
theorem outputPinsFollowPhase : Obligations.OutputPinsFollowPhase := by
  unfold Obligations.OutputPinsFollowPhase
  intro s rst
  exact ⟨cmdReady_iff rst s, rspValid_iff rst s, rspPin_eq_some rst s⟩

/-- Settles O14: `cmd_valid` and `cmd_ready` together are exactly the condition of the accept step, the only way out of IDLE. -/
theorem commandTransferIsValidAndReady : Obligations.CommandTransferIsValidAndReady := by
  unfold Obligations.CommandTransferIsValidAndReady
  intro s t x rest hin h
  have accepted (valid : x.cmdValid = true) (ready : s.cmdReady x.rst = true) : t.phase = .busy x.cmd := by
    obtain ⟨idle, low⟩ := (cmdReady_iff _ _).1 ready
    rw [step_idle_offer hin low idle valid] at h
    cases h
    rfl
  refine ⟨⟨?leaves, ?transfer⟩, accepted⟩
  case leaves =>
    rintro ⟨idle, leaves⟩
    obtain ⟨y, _, hy, low, valid⟩ := offer_of_leaves_idle h idle leaves
    obtain ⟨rfl, -⟩ := List.cons.inj (hin.symm.trans hy)
    exact ⟨valid, (cmdReady_iff _ _).2 ⟨idle, low⟩⟩
  case transfer =>
    rintro ⟨valid, ready⟩
    exact ⟨((cmdReady_iff _ _).1 ready).1, by simp [accepted valid ready]⟩

/-- Settles O8: the execute step runs the word in `CMDR`, and running a word that decodes is `exec` of its command. -/
theorem stepRunsTheDecodedCommand : Obligations.StepRunsTheDecodedCommand := by
  unfold Obligations.StepRunsTheDecodedCommand
  intro s w i busy decoded may
  rw [step_busy busy may, runCommand_ok _ decoded]

end Sys2Proof.Proofs
end

