-- ==== Sys2Proof/Proofs/Ordering.lean ====
section
/-! Responses leave in the order in which their commands came in (R51), step by step and over a run. -/

namespace Sys2Proof.Machine
open Sys2Proof.Safety Sys2Proof.Claims

/-! ## What a step accepts -/

theorem accepting_of_offer {s : State} {x : Sample} {rest : List Sample} (hin : s.inputs = x :: rest) (hr : x.rst = false)
    (hp : s.phase = .idle) (hv : x.cmdValid = true) : accepting s = [(s.ca, x.cmd)] := by
  simp [accepting, hin, State.commandTransfer, hv, (cmdReady_iff _ _).2 ⟨hp, hr⟩]

theorem accepting_of_rst {s : State} {x : Sample} {rest : List Sample} (hin : s.inputs = x :: rest) (hr : x.rst = true) :
    accepting s = [] := by
  simp [accepting, hin, State.commandTransfer, State.cmdReady, hr]

theorem accepting_of_not_idle {s : State} (hp : s.phase ≠ .idle) : accepting s = [] := by
  unfold accepting
  split <;> simp [State.commandTransfer, State.cmdReady, hp]

/-- A step that stays in its phase accepts nothing. -/
theorem accepting_of_same_phase {s t : State} (h : step s = .next t) (same : t.phase = s.phase) : accepting s = [] := by
  by_cases hp : s.phase = .idle
  · unfold accepting
    split
    · rfl
    · next x rest hin =>
      refine if_neg fun transfer => ?_
      simp only [State.commandTransfer, Bool.and_eq_true, cmdReady_iff] at transfer
      obtain ⟨hv, -, hr⟩ := transfer
      rw [step_idle_offer hin hr hp hv] at h
      cases h
      simp [hp] at same
  · exact accepting_of_not_idle hp

/-! ## What an engine owes -/

theorem owed_of_idle {s : State} (h : s.phase = .idle) : owed s = [] := by simp only [owed, h]

theorem owed_of_busy {s : State} {w : CmdWord} (h : s.phase = .busy w) : owed s = [responseTo s.ca w] := by
  simp only [owed, h]

theorem owed_of_done {s : State} {r : RspWord} (h : s.phase = .done r) : owed s = [some r] := by simp only [owed, h]

/-- The responses of R73 to accepted commands, in order. -/
def responsesTo (accepted : List (Elem × CmdWord)) : List (Option RspWord) := accepted.map fun c => responseTo c.1 c.2

/-! ## A step -/

/-- Without a reset, what a step delivers and what is owed after it are what was owed before it and the response to what it
accepts. -/
theorem step_without_reset_order {s t : State} (h : step s = .next t)
    (low : ∀ x rest, s.inputs = x :: rest → x.rst = false) :
    ∃ new : List RspWord, t.outputs = s.outputs ++ new ∧
      new.map some ++ owed t = owed s ++ responsesTo (accepting s) := by
  obtain ⟨x, rest, hin, hr, -⟩ | ⟨x, rest, hin, hr, hidle, hv, rfl⟩ | ⟨w, _, -, hbusy, run, -⟩ |
    ⟨x, rest, r, -, -, hdone, -, rfl⟩ | rfl := step_next_cases h
  case inl => simp [low x rest hin] at hr
  case inr.inl =>
    refine ⟨[], (List.append_nil _).symm, ?_⟩
    rw [owed_of_idle hidle, accepting_of_offer hin hr hidle hv]
    rfl
  case inr.inr.inl =>
    obtain ⟨r, response, rfl⟩ := runCommand_eq_next_iff.1 run
    refine ⟨[], (List.append_nil _).symm, ?_⟩
    rw [owed_of_busy hbusy, accepting_of_not_idle (by simp [hbusy]), owed_of_done rfl, ← response]
    rfl
  case inr.inr.inr.inl =>
    refine ⟨[r], rfl, ?_⟩
    rw [owed_of_done hdone, accepting_of_not_idle (by simp [hdone]), owed_of_idle rfl]
    rfl
  case inr.inr.inr.inr =>
    refine ⟨[], (List.append_nil _).symm, ?_⟩
    rw [accepting_of_same_phase h rfl]
    exact (List.append_nil _).symm

/-- With a reset nothing is delivered, accepted or owed (R193). -/
theorem step_reset_order {s t : State} (h : step s = .next t) {x : Sample} {rest : List Sample}
    (hin : s.inputs = x :: rest) (hr : x.rst = true) : t.outputs = s.outputs ∧ owed t = [] ∧ accepting s = [] := by
  rw [step_rst hin hr] at h
  cases h
  exact ⟨rfl, owed_of_idle rfl, accepting_of_rst hin hr⟩

/-- Every step takes its sample. -/
theorem step_inputs {s t : State} (h : step s = .next t) : t.inputs = s.inputs.tail := by
  obtain ⟨x, rest, -, -, rfl⟩ | ⟨x, rest, -, -, -, -, rfl⟩ | ⟨w, r, -, -, -, rfl⟩ | ⟨x, rest, r, -, -, -, -, rfl⟩ | rfl :=
    step_next_cases h <;> rfl

/-! ## A run -/

/-- What a stretch of steps from `s` to `t` that accepts `accepted` does to the order of responses: without a reset among the
samples none is lost, and with resets those that are left keep their order. -/
def KeepsOrder (s t : State) (accepted : List (Elem × CmdWord)) : Prop :=
  ∃ new : List RspWord, t.outputs = s.outputs ++ new ∧
    ((∀ x ∈ s.inputs, x.rst = false) → new.map some ++ owed t = owed s ++ responsesTo accepted) ∧
    (new.map some ++ owed t).Sublist (owed s ++ responsesTo accepted)

theorem KeepsOrder.refl (s : State) : KeepsOrder s s [] :=
  ⟨[], (List.append_nil _).symm, fun _ => (List.append_nil _).symm, by simp [responsesTo]⟩

theorem KeepsOrder.of_step {s t : State} (h : step s = .next t) : KeepsOrder s t (accepting s) := by
  by_cases reset : ∃ x rest, s.inputs = x :: rest ∧ x.rst = true
  · obtain ⟨x, rest, hin, hr⟩ := reset
    obtain ⟨out, nothingOwed, -⟩ := step_reset_order h hin hr
    refine ⟨[], by simp [out], fun low => ?_, by simp [nothingOwed]⟩
    simp [low x (by simp [hin])] at hr
  · obtain ⟨new, out, order⟩ := step_without_reset_order h fun x rest hin => by
      rw [← Bool.not_eq_true]
      exact fun hr => reset ⟨x, rest, hin, hr⟩
    exact ⟨new, out, fun _ => order, by rw [order]⟩

theorem KeepsOrder.trans {s m t : State} {a b : List (Elem × CmdWord)} (taken : m.inputs ⊆ s.inputs)
    (first : KeepsOrder s m a) (second : KeepsOrder m t b) : KeepsOrder s t (a ++ b) := by
  obtain ⟨new, out, order, sub⟩ := first
  obtain ⟨new', out', order', sub'⟩ := second
  have split : responsesTo (a ++ b) = responsesTo a ++ responsesTo b := List.map_append
  refine ⟨new ++ new', by rw [out', out, List.append_assoc], fun low => ?_, ?_⟩
  · rw [List.map_append, List.append_assoc, order' fun x hx => low x (taken hx), ← List.append_assoc, order low, split,
      List.append_assoc]
  · have later := (List.Sublist.refl (new.map some)).append sub'
    have earlier := sub.append (List.Sublist.refl (responsesTo b))
    simp only [List.append_assoc] at later earlier
    simpa [split] using later.trans earlier

/-- Every run keeps the responses in the order of acceptance. -/
theorem KeepsOrder.of_run (k : Nat) {s t : State} (h : Sys2Proof.core.run k s = .next t) :
    KeepsOrder s t (acceptedIn k s) := by
  induction k generalizing s with
  | zero =>
    rw [run_zero] at h
    cases h
    exact .refl _
  | succ k ih =>
    obtain ⟨m, hm, hrun⟩ := run_succ_next h
    have accepted : acceptedIn (k + 1) s = accepting s ++ acceptedIn k m := by rw [acceptedIn, hm]
    rw [accepted]
    exact .trans (step_inputs hm ▸ List.tail_subset _) (.of_step hm) (ih hrun)

end Sys2Proof.Machine

namespace Sys2Proof.Proofs
open Sys2Proof.Machine

/-- Settles O56: accept makes a debt, execute turns it into the response of R73, deliver pays it, and reset drops it. -/
theorem stepKeepsAnswersInOrder : Obligations.StepKeepsAnswersInOrder := by
  unfold Obligations.StepKeepsAnswersInOrder
  intro s t h
  exact ⟨step_without_reset_order h, fun x rest => step_reset_order h⟩

/-- Settles O21: what every step keeps, over the run, from an engine that owes nothing. -/
theorem responsesFollowAcceptanceOrder : Obligations.ResponsesFollowAcceptanceOrder := by
  unfold Obligations.ResponsesFollowAcceptanceOrder
  intro k s t idle h
  obtain ⟨new, out, order, sub⟩ := KeepsOrder.of_run k h
  rw [owed_of_idle idle] at order sub
  exact ⟨new, out, order, (List.sublist_append_left _ _).trans sub⟩

end Sys2Proof.Proofs
end

