-- ==== Sys2Proof/Proofs/AssemblerWords.lean ====
section
/-! The words of the assembler notation and the lines it refuses (R76). -/

namespace Sys2Proof
open Machine

/-! ## Refusals -/

/-- An expanded line is a command or a raw word, so it has a word. -/
theorem expand_toWord_isSome (l : AsmLine) : l.expand.toWord.isSome = true := by
  cases l <;> rfl

theorem assemble_eq_none_iff (l : AsmLine) : assemble l = none ↔ l.wf = false := by
  have word := expand_toWord_isSome l
  cases h : l.wf
  · simp [assemble, h]
  · simp [assemble, h, Option.isSome_iff_ne_none.1 word]

theorem fitsElem_eq_false_iff (n : Nat) : fitsElem n = false ↔ 15 < n := by simp [fitsElem]; omega

theorem fitsByte_eq_false_iff (n : Nat) : fitsByte n = false ↔ 255 < n := by simp [fitsByte]; omega

theorem fitsWord_eq_false_iff (n : Nat) : fitsWord n = false ↔ 2 ^ 20 ≤ n := by simp [fitsWord]

theorem fitsPoint_eq_false_iff (u v : Nat) : fitsPoint (u, v) = false ↔ 15 < u ∨ 15 < v := by
  simp only [fitsPoint, Bool.and_eq_false_iff, fitsElem_eq_false_iff]

/-! ## Words -/

/-- The line of a command, its operands written as numbers. -/
def Instr.line : Instr → AsmLine
  | .fdeg w => .fdeg w.toNat
  | .fadd a b => .fadd a.toNat b.toNat
  | .fmul a b => .fmul a.toNat b.toNat
  | .fred w => .fred w.toNat
  | .finv a => .finv a.toNat
  | .fdiv a b => .fdiv a.toNat b.toNat
  | .padd p q => .padd (p.u.toNat, p.v.toNat) (q.u.toNat, q.v.toNat)
  | .pneg p => .pneg (p.u.toNat, p.v.toNat)
  | .pmul p c => .pmul (p.u.toNat, p.v.toNat) c.toNat
  | .pord p => .pord (p.u.toNat, p.v.toNat)

theorem line_wf (i : Instr) : i.line.wf = i.wf := by
  cases i <;> rfl

theorem line_toWord (i : Instr) : i.line.expand.toWord = some (encode i) := by
  cases i <;> simp [Instr.line, AsmLine.expand, AsmLine.toWord, asmPoint]

/-- The line of a command assembles to the command's word. -/
theorem assemble_line (i : Instr) : assemble i.line = some (encode i) := by
  rw [assemble, line_wf, instr_wf, if_pos rfl, line_toWord]

theorem assemble_word (w : CmdWord) : assemble (.word w.toNat) = some w := by
  have fits : (AsmLine.word w.toNat).wf = true := decide_eq_true w.isLt
  have word : (AsmLine.word w.toNat).expand.toWord = some (BitVec.ofNat 20 w.toNat) := rfl
  rw [assemble, fits, if_pos rfl, word, BitVec.ofNat_toNat, BitVec.setWidth_eq]

end Sys2Proof

namespace Sys2Proof.Proofs
open Sys2Proof.Machine

/-- Settles O6: a line that fits is the line of a command or a raw word, and a line is refused exactly when it does not fit. -/
theorem assemblerWritesTheTableWords : Obligations.AssemblerWritesTheTableWords := by
  unfold Obligations.AssemblerWritesTheTableWords
  refine ⟨fun w => assemble_line (.fdeg w), fun a b => ?_, fun a b => ?_, fun w => assemble_line (.fred w), fun a => ?_,
    fun a b => ?_, fun r1 s1 r2 s2 => ?_, fun u v => ?_, fun u v c => ?_, fun u v => ?_, assemble_word, fun w => ?_,
    fun a b => ?_, fun a => ?_, fun r1 s1 r2 s2 => ?_, fun u v => ?_, fun u v c => ?_, fun w => ?_, assemble_eq_none_iff,
    Tests.test_text_padd⟩
  case refine_1 => rw [append_nibbles]; exact assemble_line (.fadd a b)
  case refine_2 => rw [append_nibbles]; exact assemble_line (.fmul a b)
  case refine_3 => rw [append_nibbles_byte]; exact assemble_line (.finv a)
  case refine_4 => rw [append_nibbles]; exact assemble_line (.fdiv a b)
  case refine_5 => rw [append_nibbles]; exact assemble_line (.padd ⟨r1, s1⟩ ⟨r2, s2⟩)
  case refine_6 => rw [append_nibbles_byte]; exact assemble_line (.pneg ⟨u, v⟩)
  case refine_7 => rw [append_nibbles_byte]; exact assemble_line (.pmul ⟨u, v⟩ c)
  case refine_8 => rw [append_nibbles_byte]; exact assemble_line (.pord ⟨u, v⟩)
  all_goals
    simp only [assemble_eq_none_iff, AsmLine.wf, Bool.and_eq_false_iff, fitsElem_eq_false_iff, fitsByte_eq_false_iff,
      fitsWord_eq_false_iff, fitsPoint_eq_false_iff, or_assoc, and_self]

end Sys2Proof.Proofs
end

