-- ==== Sys2Proof/Proofs/ElemField.lean ====
section
/-! The sixteen elements with XOR and `gf_mul` are a field. -/

namespace Sys2Proof.Machine

/-- A field that is the engine's: its elements are the sixteen, its sum is `gf_add` (R103) and its product `gf_mul` (R105). -/
structure ElemField (K : Type) [Field K] where
  equiv : Elem ≃ K
  map_xor : ∀ a b, equiv (a ^^^ b) = equiv a + equiv b
  map_gfMul : ∀ a b, equiv (gfMul a b) = equiv a * equiv b

/-- The inverse of an element in the field, 0 for 0, where `gf_inv` has no value (R109). -/
def fieldInv (a : Elem) : Elem :=
  match gfInv a with
  | .ok r => r
  | .error _ => 0

theorem gfMul_fieldInv {a : Elem} (ha : a ≠ 0) : gfMul a (fieldInv a) = 1#4 := by
  obtain ⟨r, run, unit⟩ := gfInv_of_ne_zero ha
  rw [fieldInv, run]
  exact unit

/-- The elements as a field: a name of its own, since bit vectors have the sum and product of integers. -/
def FieldElem : Type := Elem

@[reducible] def fieldOfElems : Field FieldElem where
  add := gfAdd
  zero := 0#4
  neg a := a
  mul := gfMul
  one := 1#4
  inv := fieldInv
  nsmul := @nsmulRec _ ⟨0#4⟩ ⟨gfAdd⟩
  zsmul := @zsmulRec _ ⟨0#4⟩ ⟨gfAdd⟩ ⟨id⟩ (@nsmulRec _ ⟨0#4⟩ ⟨gfAdd⟩)
  add_assoc := BitVec.xor_assoc
  zero_add _ := BitVec.zero_xor
  add_zero _ := BitVec.xor_zero
  add_comm := BitVec.xor_comm
  neg_add_cancel _ := BitVec.xor_self
  mul_assoc := gfMul_assoc
  one_mul := one_gfMul
  mul_one := gfMul_one
  mul_comm := gfMul_comm
  zero_mul := zero_gfMul
  mul_zero := gfMul_zero
  left_distrib := gfMul_xor
  right_distrib := xor_gfMul
  exists_pair_ne := ⟨0#4, 1#4, (by decide : 0#4 ≠ 1#4)⟩
  mul_inv_cancel _ := gfMul_fieldInv
  inv_zero := rfl
  nnqsmul := _
  qsmul := _

/-- The engine's field exists, so what holds of the elements in every such field holds of the elements. -/
theorem exists_elemField : ∃ (K : Type) (_ : Field K), Nonempty (ElemField K) :=
  ⟨FieldElem, fieldOfElems, ⟨@ElemField.mk _ fieldOfElems (Equiv.refl Elem) (fun _ _ => rfl) fun _ _ => rfl⟩⟩

namespace ElemField

variable {K : Type} [Field K] (e : ElemField K)

@[simp] theorem map_zero : e.equiv 0#4 = 0 := by
  simpa using e.map_xor 0#4 0#4

@[simp] theorem map_eq_zero_iff {a : Elem} : e.equiv a = 0 ↔ a = 0#4 := by
  rw [← e.map_zero, e.equiv.apply_eq_iff_eq]

@[simp] theorem map_one : e.equiv 1#4 = 1 := by
  have square := e.map_gfMul 1#4 1#4
  rw [gfMul_one, eq_comm, mul_eq_left₀ (mt e.map_eq_zero_iff.1 (by decide))] at square
  exact square

include e in
/-- The characteristic is 2. -/
theorem two_eq_zero : (2 : K) = 0 := by
  have double := e.map_xor 1#4 1#4
  rw [BitVec.xor_self, e.map_zero, e.map_one, one_add_one_eq_two] at double
  exact double.symm

end ElemField

end Sys2Proof.Machine
end

