-- ==== Sys2Proof/Proofs/FieldTables.lean ====
section
/-! The spec's evaluations of the field functions (40_field.md sections 4 and 7, 90_conflicts.md C1): closed facts about the
sixteen elements. -/

namespace Sys2Proof.Machine

/-- Repeated multiplication is the power in the field. -/
theorem ElemField.map_power {K : Type} [Field K] (e : ElemField K) (n : Nat) (a c : Elem) :
    e.equiv ((List.replicate n a).foldl gfMul c) = e.equiv c * e.equiv a ^ n := by
  induction n generalizing c with
  | zero => simp
  | succ n ih => rw [List.replicate_succ, List.foldl_cons, ih, e.map_gfMul, pow_succ', mul_assoc]

/-- Fermat's little theorem for the sixteen elements. -/
theorem gfMul_fourteenth_power {a : Elem} (ha : a ≠ 0) : gfMul a ((List.replicate 14 a).foldl gfMul 1#4) = 1#4 := by
  obtain ⟨K, _, ⟨e⟩⟩ := exists_elemField
  have := Fintype.ofEquiv Elem e.equiv
  have size : Fintype.card K = 16 := (Fintype.card_congr e.equiv).symm
  have fermat := FiniteField.pow_card_sub_one_eq_one (e.equiv a) (mt e.map_eq_zero_iff.1 ha)
  rw [size, pow_succ'] at fermat
  refine e.equiv.injective ?_
  rw [e.map_gfMul, e.map_power, e.map_one, one_mul, fermat]

/-- The printed table of inverses (40_field.md section 7), read off entry by entry. -/
theorem gfInv_table {a : Elem} (ha : a ≠ 0) :
    ∃ r : Elem, gfInv a = .ok r ∧ Claims.inverseTable.getD (a.toNat - 1) 99 = r.toNat := by
  revert a; decide

end Sys2Proof.Machine

namespace Sys2Proof.Proofs
open Sys2Proof.Machine Sys2Proof.Safety Sys2Proof.Claims

/-- Settles O38: each of the 256 products is evaluated. -/
theorem multiplicationTable : Obligations.MultiplicationTable := by
  unfold Obligations.MultiplicationTable
  decide

/-- Settles O39: the table is read off, and by Fermat's little theorem the 14th power of a nonzero element is its inverse. -/
theorem inverseTable : Obligations.InverseTable := by
  unfold Obligations.InverseTable
  intro a ha
  obtain ⟨r, run, table⟩ := gfInv_table ha
  exact ⟨r, run, table, Except.ok.inj ((gfInv_of_gfMul (gfMul_fourteenth_power ha)).symm.trans run)⟩

/-- Settles O40: each of the 256 carry-less products is reduced. -/
theorem productIsReducedCarrylessProduct : Obligations.ProductIsReducedCarrylessProduct := by
  unfold Obligations.ProductIsReducedCarrylessProduct
  decide

/-- Settles O41: each of the 256 bytes is reduced. -/
theorem reductionClosedForm : Obligations.ReductionClosedForm := by
  unfold Obligations.ReductionClosedForm
  decide

/-- Settles O42: both loops are run on each of the fifteen nonzero elements. -/
theorem inverterMaskIsTheRemainder : Obligations.InverterMaskIsTheRemainder := by
  unfold Obligations.InverterMaskIsTheRemainder
  decide

end Sys2Proof.Proofs
end

