-- ==== Sys2Proof/Proofs/CurveGroup.lean ====
section
/-! The valid points of a curve (R11, R130) under `pt_add` (R131) are a group: Mathlib's group of nonsingular points on
y^2 + x y = x^3 + CA x^2 + b, whose point at infinity the pair (0, 0) stands for. -/

namespace Sys2Proof.Machine
open Sys2Proof.Safety WeierstrassCurve

/-- A group that is the valid points of the curve `(ca, b)`: its zero is `ID`, its negation `pt_neg`, its sum `pt_add`. -/
structure CurveGroup (ca b : Elem) (G : Type) [AddCommGroup G] where
  point : G → Point
  injective : Function.Injective point
  valid_iff : ∀ p, valid ca b p = true ↔ ∃ P, point P = p
  zero : point 0 = Point.identity
  neg : ∀ P, point (-P) = ptNeg (point P)
  add : ∀ P Q, ptAdd ca (point P) (point Q) = .ok (point (P + Q))

namespace ElemField

variable {K : Type} [Field K] (e : ElemField K) (ca b : Elem)

/-- The curve of R130 over the field. -/
def curve : Affine K := { a₁ := 1, a₂ := e.equiv ca, a₃ := 0, a₄ := 0, a₆ := e.equiv b }

theorem equation_iff (u v : Elem) :
    (e.curve ca b).Equation (e.equiv u) (e.equiv v) ↔ onCurve ca b ⟨u, v⟩ = true := by
  rw [Affine.equation_iff, onCurve, beq_iff_eq, ← e.equiv.apply_eq_iff_eq]
  simp only [e.map_xor, e.map_gfMul, curve]
  ring_nf

/-- The one singular point of R130's curves is (0, 0). -/
theorem nonsingular_iff (u v : Elem) :
    (e.curve ca b).Nonsingular (e.equiv u) (e.equiv v) ↔
      onCurve ca b ⟨u, v⟩ = true ∧ (⟨u, v⟩ : Point) ≠ Point.identity := by
  rw [Affine.nonsingular_iff', e.equation_iff]
  refine and_congr_right fun _ => ?_
  simp only [curve, e.two_eq_zero, Point.identity, ne_eq, Point.mk.injEq, one_mul, zero_mul, add_zero, zero_add,
    e.map_eq_zero_iff]
  by_cases hu : u = 0#4 <;> simp [hu]

/-- The negative on the curve is `pt_neg`'s second coordinate (R133). -/
theorem negY_eq (u v : Elem) : (e.curve ca b).negY (e.equiv u) (e.equiv v) = e.equiv (u ^^^ v) := by
  rw [Affine.negY, e.map_xor]
  simp only [curve]
  linear_combination (-e.equiv v - e.equiv u) * e.two_eq_zero

/-! ## Points -/

/-- The engine's pair for a point of the curve. -/
def pair : (e.curve ca b).Point → Point
  | .zero => Point.identity
  | .some x y _ => ⟨e.equiv.symm x, e.equiv.symm y⟩

variable {ca b}

@[simp] theorem pair_zero : e.pair ca b 0 = Point.identity := rfl

@[simp] theorem pair_some {u v : Elem} (h : (e.curve ca b).Nonsingular (e.equiv u) (e.equiv v)) :
    e.pair ca b (.some _ _ h) = ⟨u, v⟩ := by
  simp [pair]

theorem point_cases (P : (e.curve ca b).Point) :
    P = 0 ∨ ∃ (u v : Elem) (h : (e.curve ca b).Nonsingular (e.equiv u) (e.equiv v)), P = .some _ _ h := by
  match P with
  | .zero => exact .inl rfl
  | .some x y h =>
    obtain ⟨u, rfl⟩ := e.equiv.surjective x
    obtain ⟨v, rfl⟩ := e.equiv.surjective y
    exact .inr ⟨u, v, h, rfl⟩

theorem pair_some_ne_identity {u v : Elem} (h : (e.curve ca b).Nonsingular (e.equiv u) (e.equiv v)) :
    (⟨u, v⟩ : Point) ≠ Point.identity :=
  ((e.nonsingular_iff ca b u v).1 h).2

theorem pair_injective : Function.Injective (e.pair ca b) := by
  intro P Q same
  obtain rfl | ⟨u, v, h, rfl⟩ := e.point_cases P <;> obtain rfl | ⟨u', v', h', rfl⟩ := e.point_cases Q
  · rfl
  · exact absurd (by simpa using same.symm) (e.pair_some_ne_identity h')
  · exact absurd (by simpa using same) (e.pair_some_ne_identity h)
  · obtain ⟨rfl, rfl⟩ : u = u' ∧ v = v' := by simpa using same
    rfl

theorem valid_iff_pair (p : Point) : valid ca b p = true ↔ ∃ P, e.pair ca b P = p := by
  simp only [valid, Bool.or_eq_true, beq_iff_eq]
  constructor
  · intro h
    by_cases hp : p = Point.identity
    · exact ⟨0, hp.symm⟩
    · exact ⟨.some _ _ ((e.nonsingular_iff ca b p.u p.v).2 ⟨h.resolve_left hp, hp⟩), e.pair_some _⟩
  · rintro ⟨P, rfl⟩
    obtain rfl | ⟨u, v, h, rfl⟩ := e.point_cases P
    · exact .inl rfl
    · rw [e.pair_some]
      exact .inr ((e.nonsingular_iff ca b u v).1 h).1

/-- The test of case 3 of R131 is the curve's test for negatives. -/
theorem eq_negY_iff (u₁ v₁ u₂ v₂ : Elem) :
    e.equiv u₁ = e.equiv u₂ ∧ e.equiv v₁ = (e.curve ca b).negY (e.equiv u₂) (e.equiv v₂) ↔
      (⟨u₁, v₁⟩ : Point) = ptNeg ⟨u₂, v₂⟩ := by
  rw [negY_eq]
  simp [ptNeg, gfAdd]

theorem pair_neg (P : (e.curve ca b).Point) : e.pair ca b (-P) = ptNeg (e.pair ca b P) := by
  obtain rfl | ⟨u, v, h, rfl⟩ := e.point_cases P
  · simp
  · simp only [Affine.Point.neg_some, pair, negY_eq, Equiv.symm_apply_apply, ptNeg, gfAdd]

/-! ## Addition -/

/-- The first coordinate of a sum (R131). -/
theorem addX_eq (u₁ u₂ m : Elem) :
    (e.curve ca b).addX (e.equiv u₁) (e.equiv u₂) (e.equiv m) = e.equiv (gfMul m m ^^^ m ^^^ ca ^^^ u₁ ^^^ u₂) := by
  simp only [Affine.addX, curve, e.map_xor, e.map_gfMul]
  linear_combination -(e.equiv ca + e.equiv u₁ + e.equiv u₂) * e.two_eq_zero

/-- The second coordinate of a sum (R131). -/
theorem addY_eq {u₁ u₂ v₁ m u : Elem} (first : u = gfMul m m ^^^ m ^^^ ca ^^^ u₁ ^^^ u₂) :
    (e.curve ca b).addY (e.equiv u₁) (e.equiv u₂) (e.equiv v₁) (e.equiv m) =
      e.equiv (gfMul m (u ^^^ u₁) ^^^ u ^^^ v₁) := by
  rw [Affine.addY, Affine.negAddY, addX_eq, ← first]
  simp only [Affine.negY, curve, e.map_xor, e.map_gfMul]
  linear_combination -(e.equiv m * e.equiv u + e.equiv u + e.equiv v₁) * e.two_eq_zero

variable [DecidableEq K]

/-- The slope of the tangent is that of case 4 of R131. -/
theorem slope_self {u v k : Elem} (hu : u ≠ 0) (quotient : gfMul k u = v) :
    (e.curve ca b).slope (e.equiv u) (e.equiv u) (e.equiv v) (e.equiv v) = e.equiv (u ^^^ k) := by
  have hy : e.equiv v ≠ (e.curve ca b).negY (e.equiv u) (e.equiv v) := by
    rw [negY_eq, e.map_xor]
    simpa using hu
  rw [Affine.slope_of_Y_ne rfl hy, div_eq_iff (sub_ne_zero.2 hy), negY_eq, ← quotient]
  simp only [e.map_xor, e.map_gfMul, curve]
  linear_combination (e.equiv ca * e.equiv u + 2 * e.equiv u ^ 2) * e.two_eq_zero

/-- The slope of the chord is that of case 5 of R131. -/
theorem slope_of_ne {u₁ v₁ u₂ v₂ m : Elem} (hu : u₁ ≠ u₂) (slope : gfMul m (u₂ ^^^ u₁) = v₂ ^^^ v₁) :
    (e.curve ca b).slope (e.equiv u₁) (e.equiv u₂) (e.equiv v₁) (e.equiv v₂) = e.equiv m := by
  have hx : e.equiv u₁ ≠ e.equiv u₂ := e.equiv.injective.ne hu
  have product := congrArg e.equiv slope
  simp only [e.map_xor, e.map_gfMul] at product
  rw [Affine.slope_of_X_ne hx, div_eq_iff (sub_ne_zero.2 hx)]
  linear_combination product + (e.equiv v₁ - e.equiv m * e.equiv u₁) * e.two_eq_zero

/-- The engine's pair for a sum along a line of slope `m`. -/
theorem pair_sum {u₁ v₁ u₂ v₂ m u : Elem} {h₁ : (e.curve ca b).Nonsingular (e.equiv u₁) (e.equiv v₁)}
    {h₂ : (e.curve ca b).Nonsingular (e.equiv u₂) (e.equiv v₂)} (apart : (⟨u₁, v₁⟩ : Point) ≠ ptNeg ⟨u₂, v₂⟩)
    (slope : (e.curve ca b).slope (e.equiv u₁) (e.equiv u₂) (e.equiv v₁) (e.equiv v₂) = e.equiv m)
    (first : u = gfMul m m ^^^ m ^^^ ca ^^^ u₁ ^^^ u₂) :
    e.pair ca b (.some _ _ h₁ + .some _ _ h₂) = ⟨u, gfMul m (u ^^^ u₁) ^^^ u ^^^ v₁⟩ := by
  rw [Affine.Point.add_some (mt (e.eq_negY_iff u₁ v₁ u₂ v₂).1 apart)]
  simp only [pair, slope, addX_eq, ← first, addY_eq e first, Equiv.symm_apply_apply]

/-- The five cases of R131 are those of the group of the curve. -/
theorem pair_add (P Q : (e.curve ca b).Point) : ptAdd ca (e.pair ca b P) (e.pair ca b Q) = .ok (e.pair ca b (P + Q)) := by
  obtain rfl | ⟨u₁, v₁, h₁, rfl⟩ := e.point_cases P
  · simp
  obtain rfl | ⟨u₂, v₂, h₂, rfl⟩ := e.point_cases Q
  · simp
  have proper₁ : (⟨u₁, v₁⟩ : Point) ≠ Point.identity := e.pair_some_ne_identity h₁
  have proper₂ : (⟨u₂, v₂⟩ : Point) ≠ Point.identity := e.pair_some_ne_identity h₂
  rw [pair_some, pair_some]
  by_cases negatives : (⟨u₁, v₁⟩ : Point) = ptNeg ⟨u₂, v₂⟩
  · obtain ⟨hx, hy⟩ := (e.eq_negY_iff u₁ v₁ u₂ v₂).2 negatives
    rw [ptAdd_negatives ca proper₁ proper₂ (.inl negatives), Affine.Point.add_of_Y_eq hx hy, pair_zero]
  by_cases hu : u₁ = u₂
  · subst hu
    have hy : e.equiv v₁ ≠ (e.curve ca b).negY (e.equiv u₁) (e.equiv v₂) := fun hy =>
      negatives ((e.eq_negY_iff u₁ v₁ u₁ v₂).1 ⟨rfl, hy⟩)
    obtain rfl : v₁ = v₂ := e.equiv.injective (Affine.Y_eq_of_Y_ne h₁.1 h₂.1 rfl hy)
    have nonzero : u₁ ≠ 0 := fun zero => negatives ((eq_ptNeg_iff _ _).2 ⟨rfl, by simp [zero]⟩)
    obtain ⟨k, m, u, v, quotient, slope, first, second, sum⟩ := ptAdd_self_of_u_ne_zero ca (p := ⟨u₁, v₁⟩) nonzero
    have tangent := e.pair_sum (u := u) (h₁ := h₁) (h₂ := h₂) negatives (slope ▸ e.slope_self nonzero quotient)
      (by simp [first, BitVec.xor_assoc])
    rw [sum, tangent, second, gfMul_xor, BitVec.xor_comm (gfMul m u)]
  · obtain ⟨m, u, v, slope, first, second, sum⟩ := ptAdd_of_u_ne ca proper₁ proper₂ hu
    rw [sum, e.pair_sum negatives (e.slope_of_ne hu slope) first, second]

variable (ca b) in
/-- The group of a curve over the field is the group of its valid points. -/
def curveGroup : CurveGroup ca b (e.curve ca b).Point where
  point := e.pair ca b
  injective := e.pair_injective
  valid_iff := e.valid_iff_pair
  zero := e.pair_zero
  neg := e.pair_neg
  add := e.pair_add

end ElemField

/-- The valid points of every curve are a group under `pt_add`. -/
theorem exists_curveGroup (ca b : Elem) : ∃ (G : Type) (_ : AddCommGroup G), Nonempty (CurveGroup ca b G) := by
  classical
  obtain ⟨K, field, ⟨e⟩⟩ := exists_elemField
  exact ⟨_, _, ⟨e.curveGroup ca b⟩⟩

end Sys2Proof.Machine
end

