-- ==== Sys2Proof/Proofs/GroupLaws.lean ====
section
/-! The laws of point addition: the zero divisor (R139), the curve of a point (R130), closure, commutativity and associativity
(R140), points that are their own negative (R142). -/

namespace Sys2Proof.Machine
open Sys2Proof.Safety

/-! ## The zero divisor -/

theorem meetsZeroDivisor_iff (p q : Point) :
    meetsZeroDivisor p q = true ↔ p ≠ Point.identity ∧ q ≠ Point.identity ∧ p.u = q.u ∧ p ≠ q ∧ p ≠ ptNeg q := by
  obtain ⟨u, v⟩ := p
  obtain ⟨u', v'⟩ := q
  simp only [meetsZeroDivisor, Bool.and_eq_true, bne_iff_ne, beq_iff_eq, and_assoc, ne_eq]
  refine and_congr_right fun _ => and_congr_right fun _ => and_congr_right fun hu => ?_
  subst hu
  have negative : v' = v ^^^ u ↔ (⟨u, v⟩ : Point) = ptNeg ⟨u, v'⟩ := by
    rw [eq_ptNeg_comm, BitVec.xor_comm]
    simp [ptNeg, gfAdd]
  have same : v' = v ↔ (⟨u, v⟩ : Point) = ⟨u, v'⟩ := by simp [eq_comm]
  rw [negative, same]

/-- Under R139's condition case 5 of R131 divides by 0. -/
theorem ptAdd_of_meets (ca : Elem) {p q : Point} (h : meetsZeroDivisor p q = true) : ptAdd ca p q = raise .div0 := by
  obtain ⟨hp, hq, hu, different, notNegative⟩ := (meetsZeroDivisor_iff p q).1 h
  exact ptAdd_of_u_eq ca hp hq hu different notNegative

/-- Off R139's condition every case of R131 has a value. -/
theorem ptAdd_of_not_meets (ca : Elem) {p q : Point} (h : meetsZeroDivisor p q = false) : ∃ t, ptAdd ca p q = .ok t := by
  rw [← Bool.not_eq_true, meetsZeroDivisor_iff] at h
  by_cases hp : p = Point.identity
  · exact ⟨q, hp ▸ ptAdd_identity_left ca q⟩
  by_cases hq : q = Point.identity
  · exact ⟨p, hq ▸ ptAdd_identity_right ca p⟩
  by_cases negatives : p = ptNeg q
  · exact ⟨_, ptAdd_negatives ca hp hq (.inl negatives)⟩
  by_cases hu : p.u = q.u
  · obtain rfl : p = q := by
      by_contra different
      exact h ⟨hp, hq, hu, different, negatives⟩
    have nonzero : p.u ≠ 0 := fun zero => negatives ((eq_ptNeg_iff p p).2 ⟨rfl, by simp [zero]⟩)
    obtain ⟨_, _, u, v, -, -, -, -, sum⟩ := ptAdd_self_of_u_ne_zero ca nonzero
    exact ⟨_, sum⟩
  · obtain ⟨_, u, v, -, -, -, sum⟩ := ptAdd_of_u_ne ca hp hq hu
    exact ⟨_, sum⟩

theorem ptAdd_eq_div0_iff (ca : Elem) (p q : Point) :
    ptAdd ca p q = .error (.raised .div0) ↔ meetsZeroDivisor p q = true := by
  refine ⟨fun raised => ?_, ptAdd_of_meets ca⟩
  by_contra h
  obtain ⟨t, sum⟩ := ptAdd_of_not_meets ca (Bool.eq_false_of_not_eq_true h)
  simp [sum] at raised

/-- Two valid points of one curve have a sum, so they never meet the condition. -/
theorem meetsZeroDivisor_of_valid {ca b : Elem} {p q : Point} (hp : valid ca b p = true) (hq : valid ca b q = true) :
    meetsZeroDivisor p q = false := by
  obtain ⟨G, _, ⟨g⟩⟩ := exists_curveGroup ca b
  obtain ⟨P, rfl⟩ := (g.valid_iff p).1 hp
  obtain ⟨Q, rfl⟩ := (g.valid_iff q).1 hq
  by_contra h
  have raised := (ptAdd_eq_div0_iff ca _ _).2 (Bool.eq_true_of_not_eq_false h)
  simp [g.add] at raised

/-! ## The curve of a point -/

/-- The coefficient of the one curve that a non-identity point lies on: the equation of R130 solved for `b`. -/
def curveOf (ca : Elem) (p : Point) : Elem :=
  gfMul p.v p.v ^^^ gfMul p.u p.v ^^^ (gfMul (gfMul p.u p.u) p.u ^^^ gfMul ca (gfMul p.u p.u))

/-- A summand taken to the other side. -/
theorem eq_xor_iff (x y b : Elem) : x = y ^^^ b ↔ b = x ^^^ y := by
  constructor
  · rintro rfl
    rw [BitVec.xor_comm y b, BitVec.xor_assoc, BitVec.xor_self, BitVec.xor_zero]
  · rintro rfl
    rw [BitVec.xor_comm x y, ← BitVec.xor_assoc, BitVec.xor_self, BitVec.zero_xor]

theorem onCurve_iff (ca b : Elem) (p : Point) : onCurve ca b p = true ↔ b = curveOf ca p := by
  rw [onCurve, beq_iff_eq, eq_xor_iff, curveOf]

/-- Every point, `ID` included, is a point of some curve's group. -/
theorem exists_curveGroup_point (ca : Elem) (p : Point) :
    ∃ (b : Elem) (G : Type) (_ : AddCommGroup G) (g : CurveGroup ca b G) (P : G), g.point P = p := by
  obtain ⟨G, group, ⟨g⟩⟩ := exists_curveGroup ca (curveOf ca p)
  have lies : valid ca (curveOf ca p) p = true := by simp [valid, onCurve_iff]
  obtain ⟨P, hP⟩ := (g.valid_iff p).1 lies
  exact ⟨_, G, group, g, P, hP⟩

theorem ptNeg_eq_self_iff (p : Point) : ptNeg p = p ↔ p.u = 0 := by
  rw [eq_comm, eq_ptNeg_iff, BitVec.xor_self, and_iff_right rfl]
  exact eq_comm

namespace CurveGroup

variable {ca b : Elem} {G : Type} [AddCommGroup G] (g : CurveGroup ca b G)

theorem valid_point (P : G) : valid ca b (g.point P) = true := (g.valid_iff _).2 ⟨P, rfl⟩

theorem point_eq_identity_iff (P : G) : g.point P = Point.identity ↔ P = 0 := by
  rw [← g.zero, g.injective.eq_iff]

end CurveGroup

end Sys2Proof.Machine

namespace Sys2Proof.Proofs
open Sys2Proof.Machine

/-- Settles O50: the condition decides between the cases of R131 that have a value and the one that divides by 0; on one curve
every sum has a value. -/
theorem additionFailsExactlyOnZeroDivisor : Obligations.AdditionFailsExactlyOnZeroDivisor := by
  unfold Obligations.AdditionFailsExactlyOnZeroDivisor
  exact ⟨ptAdd_eq_div0_iff, fun ca _ _ => ptAdd_of_not_meets ca, fun _ _ _ _ => meetsZeroDivisor_of_valid⟩

/-- Settles O52: the equation of the curve is solved for `b`. -/
theorem everyPointLiesOnOneCurve : Obligations.EveryPointLiesOnOneCurve := by
  unfold Obligations.EveryPointLiesOnOneCurve
  intro ca p _
  exact ⟨curveOf ca p, (onCurve_iff _ _ _).2 rfl, fun c => (onCurve_iff ca c p).1⟩

/-- Settles O53: the valid points are a commutative group. -/
theorem validPointsAreClosedAndCommute : Obligations.ValidPointsAreClosedAndCommute := by
  unfold Obligations.ValidPointsAreClosedAndCommute
  intro ca b p q hp hq
  obtain ⟨G, _, ⟨g⟩⟩ := exists_curveGroup ca b
  obtain ⟨P, rfl⟩ := (g.valid_iff p).1 hp
  obtain ⟨Q, rfl⟩ := (g.valid_iff q).1 hq
  exact ⟨g.point (P + Q), g.add P Q, g.valid_point _, add_comm P Q ▸ g.add Q P⟩

/-- Settles O54: the valid points are a group. -/
theorem validPointsAssociate : Obligations.ValidPointsAssociate := by
  unfold Obligations.ValidPointsAssociate
  intro ca b p q r hp hq hr
  obtain ⟨G, _, ⟨g⟩⟩ := exists_curveGroup ca b
  obtain ⟨P, rfl⟩ := (g.valid_iff p).1 hp
  obtain ⟨Q, rfl⟩ := (g.valid_iff q).1 hq
  obtain ⟨R, rfl⟩ := (g.valid_iff r).1 hr
  exact ⟨g.point (P + Q), g.point (Q + R), g.point (P + Q + R), g.add P Q, g.add Q R, g.add (P + Q) R,
    add_assoc P Q R ▸ g.add P (Q + R)⟩

/-- Settles O55: in the group of the point's curve its double is zero exactly when it is its own negative. -/
theorem onlySelfNegativePointsDoubleToIdentity : Obligations.OnlySelfNegativePointsDoubleToIdentity := by
  unfold Obligations.OnlySelfNegativePointsDoubleToIdentity
  intro ca p
  refine ⟨ptNeg_eq_self_iff p, ?_⟩
  obtain ⟨b, G, _, g, P, rfl⟩ := exists_curveGroup_point ca p
  calc ptAdd ca (g.point P) (g.point P) = .ok Point.identity
    _ ↔ P + P = 0 := by rw [g.add, Except.ok.injEq, g.point_eq_identity_iff]
    _ ↔ -P = P := by rw [add_eq_zero_iff_eq_neg, eq_comm]
    _ ↔ ptNeg (g.point P) = g.point P := by rw [← g.neg, g.injective.eq_iff]
    _ ↔ (g.point P).u = 0 := ptNeg_eq_self_iff _

end Sys2Proof.Proofs
end

