-- ==== Sys2Proof/Proofs/Multiples.lean ====
section
/-! Multiples of a point (R135, R136): double-and-add and repeated addition are both the multiple in the group of its curve. -/

namespace Sys2Proof.Machine
open Sys2Proof.Safety

/-- The first `i + 1` bits from the top are twice the first `i` and the next bit. -/
theorem shiftRight_eq_double_add (c i : Nat) : c >>> i = c >>> (i + 1) + c >>> (i + 1) + (c.testBit i).toNat := by
  rw [Nat.shiftRight_succ, Nat.testBit_eq_decide_div_mod_eq, ← Nat.shiftRight_eq_div_pow]
  have bit : (decide (c >>> i % 2 = 1)).toNat = c >>> i % 2 := by
    rcases Nat.mod_two_eq_zero_or_one (c >>> i) with h | h <;> simp [h]
  omega

/-- The leading bit. -/
theorem shiftRight_log2 {c : Nat} (hc : c ≠ 0) : c >>> Nat.log2 c = 1 := by
  rw [Nat.shiftRight_eq_div_pow]
  have low := Nat.log2_self_le hc
  have high := Nat.lt_log2_self (n := c)
  exact Nat.div_eq_of_lt_le (by simpa using low) (by rw [pow_succ] at high; omega)

namespace CurveGroup

variable {ca b : Elem} {G : Type} [AddCommGroup G] (g : CurveGroup ca b G)

theorem copies_point (P : G) (k : Nat) : copies ca (g.point P) k = .ok (g.point ((k + 1) • P)) := by
  induction k with
  | zero => simp [copies]
  | succ k ih =>
    rw [copies, ih, succ_nsmul P (k + 1)]
    exact g.add _ P

/-- The loop of R135, from the multiple of the bits already read. -/
theorem ptMulLoop_point (P : G) (c i : Nat) :
    ptMulLoop ca (g.point P) c i (g.point ((c >>> i) • P)) = .ok (g.point (c • P)) := by
  induction i with
  | zero => rfl
  | succ i ih =>
    rw [← ih, shiftRight_eq_double_add c i]
    refine ptMulLoop_succ ca _ _ _ _ c i (g.add _ _) ?_
    cases c.testBit i
    · simp [add_nsmul]
    · simp [add_nsmul, g.add]

/-- Double-and-add is the multiple in the group (R135). -/
theorem ptMul_point (P : G) {c : Nat} (hc : c ≠ 0) : ptMul ca (g.point P) c = .ok (g.point (c • P)) := by
  have seed := g.ptMulLoop_point P c (Nat.log2 c)
  rw [shiftRight_log2 hc, one_nsmul] at seed
  rw [ptMul, if_neg hc, bitlen_pos hc]
  exact seed

end CurveGroup

/-- A scalar above 0 has a product with every point (R141). -/
theorem ptMul_answers (ca : Elem) (p : Point) {c : Nat} (hc : c ≠ 0) : ∃ t, ptMul ca p c = .ok t := by
  obtain ⟨b, G, _, g, P, rfl⟩ := exists_curveGroup_point ca p
  exact ⟨_, g.ptMul_point P hc⟩

@[simp] theorem ptMul_one (ca : Elem) (p : Point) : ptMul ca p 1 = .ok p := rfl

end Sys2Proof.Machine

namespace Sys2Proof.Proofs
open Sys2Proof.Machine

/-- Settles O48: both are the multiple in the group of the point's curve. -/
theorem scalarProductIsRepeatedAddition : Obligations.ScalarProductIsRepeatedAddition := by
  unfold Obligations.ScalarProductIsRepeatedAddition
  intro ca p c hc
  have positive : c.toNat ≠ 0 := fun h => hc (BitVec.eq_of_toNat_eq h)
  obtain ⟨b, G, _, g, P, rfl⟩ := exists_curveGroup_point ca p
  refine ⟨_, g.copies_point P _, ?_⟩
  rw [g.ptMul_point P positive, Nat.sub_one_add_one positive]

end Sys2Proof.Proofs
end

