-- ==== Sys2Proof/Proofs/Orders.lean ====
section
/-! The order of a point (R137): the group of a curve has at most 24 elements, so the loop of `pt_ord` ends within its fuel, with
the point's order in that group. -/

namespace Sys2Proof.Machine
open Sys2Proof.Safety

/-! ## The size of a curve -/

/-- The quotient with a given product. -/
theorem gfDiv_of_gfMul {a b q : Elem} (hb : b ≠ 0) (product : gfMul q b = a) : gfDiv a b = .ok q := by
  obtain ⟨i, run, unit⟩ := gfInv_of_ne_zero hb
  rw [gfDiv_of_inv run, ← product, gfMul_assoc, unit, gfMul_one]

/-- Whether a point of first coordinate `u` can lie on the curve of `b` under a `CA` with bit 3 equal to `t`. On the curve
`b / u^2 + u + CA` is `k^2 + k` for the quotient `k` of the coordinates, and bit 3 of such a sum, its trace, is 0. -/
def admitsFirst (t : Bool) (b u : Elem) : Bool :=
  match gfDiv b (gfMul u u) with
  | .ok w => (w ^^^ u).getLsbD 3 == t
  | .error _ => true

theorem square_bit_three (k : Elem) : (gfMul k k).getLsbD 3 = k.getLsbD 3 := by
  revert k; decide

theorem gfMul_self_ne_zero {u : Elem} (hu : u ≠ 0) : gfMul u u ≠ 0 := by
  revert u; decide

theorem admitsFirst_zero (t : Bool) (b : Elem) : admitsFirst t b 0 = true := by
  have divisor : gfDiv b (gfMul 0 0) = raise .div0 := gfDiv_zero b
  rw [admitsFirst, divisor]
  rfl

/-- The equation of R130 divided by the square of the first coordinate. -/
theorem gfMul_square_eq_of_onCurve {ca b u k : Elem} (h : onCurve ca b ⟨u, gfMul k u⟩ = true) :
    gfMul (gfMul k k ^^^ k ^^^ u ^^^ ca) (gfMul u u) = b := by
  obtain ⟨K, _, ⟨e⟩⟩ := exists_elemField
  have equation := (e.equation_iff ca b u _).2 h
  rw [WeierstrassCurve.Affine.equation_iff] at equation
  simp only [ElemField.curve, e.map_gfMul] at equation
  refine e.equiv.injective ?_
  simp only [e.map_xor, e.map_gfMul]
  linear_combination equation + (e.equiv u ^ 2 * e.equiv ca + e.equiv u ^ 3) * e.two_eq_zero

theorem admitsFirst_of_onCurve {ca b : Elem} {p : Point} (h : onCurve ca b p = true) :
    admitsFirst (ca.getLsbD 3) b p.u = true := by
  obtain ⟨u, v⟩ := p
  by_cases hu : u = 0
  · rw [hu, admitsFirst_zero]
  obtain ⟨k, -, rfl⟩ := gfDiv_of_ne_zero v hu
  have quotient := gfDiv_of_gfMul (gfMul_self_ne_zero hu) (gfMul_square_eq_of_onCurve h)
  simp only [admitsFirst, quotient, BitVec.getLsbD_xor, square_bit_three, Bool.xor_self, Bool.false_xor]
  cases u.getLsbD 3 <;> simp

/-- Every curve has points at most at 12 first coordinates. -/
theorem card_admitsFirst_le (t : Bool) (b : Elem) : (Finset.univ.filter fun u => admitsFirst t b u = true).card ≤ 12 := by
  revert t b; decide

namespace CurveGroup

variable {ca b : Elem} {G : Type} [AddCommGroup G] (g : CurveGroup ca b G)

theorem admitsFirst_point (P : G) : admitsFirst (ca.getLsbD 3) b (g.point P).u = true := by
  have lies := g.valid_point P
  rw [valid, Bool.or_eq_true, beq_iff_eq] at lies
  rcases lies with identity | curve
  · rw [identity]
    exact admitsFirst_zero _ b
  · exact admitsFirst_of_onCurve curve

theorem neg_eq_self_iff (P : G) : -P = P ↔ (g.point P).u = 0 := by
  rw [← g.injective.eq_iff, g.neg, ptNeg_eq_self_iff]

theorem u_zero : (g.point 0).u = 0 := (g.neg_eq_self_iff 0).1 neg_zero

/-- Two points other than the identity with one first coordinate are equal or negatives. -/
theorem eq_or_eq_neg_of_u_eq {P Q : G} (hP : P ≠ 0) (hQ : Q ≠ 0) (hu : (g.point P).u = (g.point Q).u) :
    P = Q ∨ P = -Q := by
  have never := meetsZeroDivisor_of_valid (g.valid_point P) (g.valid_point Q)
  rw [← Bool.not_eq_true, meetsZeroDivisor_iff, ← g.neg, g.injective.ne_iff, g.injective.ne_iff] at never
  by_contra h
  rw [not_or] at h
  exact never ⟨mt (g.point_eq_identity_iff P).1 hP, mt (g.point_eq_identity_iff Q).1 hQ, hu, h⟩

/-- A first coordinate is that of at most two points; at 0 one of them is the identity. -/
theorem exists_pair_of_u (x : Elem) : ∃ P Q : G, ∀ R, (g.point R).u = x → R = P ∨ R = Q := by
  by_cases other : ∃ P, P ≠ 0 ∧ (g.point P).u = x
  · obtain ⟨P, hP, rfl⟩ := other
    have others {R : G} (hR : R ≠ 0) (hu : (g.point R).u = (g.point P).u) : R = P ∨ R = -P :=
      g.eq_or_eq_neg_of_u_eq hR hP hu
    by_cases zero : (g.point P).u = 0
    · refine ⟨P, 0, fun R hu => ?_⟩
      by_cases hR : R = 0
      · exact .inr hR
      · exact .inl ((others hR hu).elim id fun h => h.trans ((g.neg_eq_self_iff P).2 zero))
    · refine ⟨P, -P, fun R hu => others ?_ hu⟩
      rintro rfl
      exact zero (hu.symm.trans g.u_zero)
  · exact ⟨0, 0, fun R hu => .inl (not_not.1 fun hR => other ⟨R, hR, hu⟩)⟩

include g in
theorem finite : Finite G := by
  have coordinates : Function.Injective fun P : G => ((g.point P).u, (g.point P).v) := fun P Q h => by
    obtain ⟨hu, hv⟩ := Prod.mk.inj h
    exact g.injective (by cases hP : g.point P; cases hQ : g.point Q; simp_all)
  exact Finite.of_injective _ coordinates

include g in
/-- A curve has at most 24 points, the identity included: at most two at each of at most 12 first coordinates. -/
theorem card_le : Nat.card G ≤ 24 := by
  classical
  have := g.finite
  have := Fintype.ofFinite G
  have fibres (x : Elem) : (Finset.univ.filter fun R => (g.point R).u = x).card ≤ 2 := by
    obtain ⟨P, Q, pair⟩ := g.exists_pair_of_u x
    refine (Finset.card_le_card fun R hR => ?_).trans (Finset.card_le_two (a := P) (b := Q))
    simpa using pair R (Finset.mem_filter.1 hR).2
  have firsts : Finset.univ.image (fun R => (g.point R).u) ⊆
      Finset.univ.filter fun u => admitsFirst (ca.getLsbD 3) b u := by
    intro x hx
    obtain ⟨R, -, rfl⟩ := Finset.mem_image.1 hx
    simpa using g.admitsFirst_point R
  calc Nat.card G = (Finset.univ : Finset G).card := Nat.card_eq_fintype_card
    _ ≤ 2 * (Finset.univ.image fun R => (g.point R).u).card := Finset.card_le_mul_card_image _ 2 fun x _ => fibres x
    _ ≤ 2 * 12 := Nat.mul_le_mul_left 2 ((Finset.card_le_card firsts).trans (card_admitsFirst_le _ b))

/-! ## The loop of `pt_ord` -/

/-- The loop of R137 from the `n`-th multiple, none of the multiples before it being zero, with fuel enough. -/
theorem ptOrdLoop_point (P : G) (fuel : Nat) {n : Nat} (positive : 1 ≤ n) (below : n ≤ addOrderOf P)
    (enough : addOrderOf P < n + fuel) :
    ptOrdLoop ca (g.point P) fuel (g.point (n • P)) n = .ok (addOrderOf P) := by
  induction fuel generalizing n with
  | zero => omega
  | succ fuel ih =>
    by_cases zero : n • P = 0
    · have same : n = addOrderOf P := below.antisymm (addOrderOf_le_of_nsmul_eq_zero positive zero)
      rw [zero, g.zero, ptOrdLoop_identity, ← same]
    · have different : n ≠ addOrderOf P := by
        rintro rfl
        exact zero (addOrderOf_nsmul_eq_zero P)
      have next : ptAdd ca (g.point (n • P)) (g.point P) = .ok (g.point ((n + 1) • P)) := by
        rw [g.add, succ_nsmul]
      rw [ptOrdLoop_succ ca _ _ _ fuel n (mt (g.point_eq_identity_iff _).1 zero) next]
      exact ih (by omega) (by omega) (by omega)

include g in
theorem addOrderOf_le (P : G) : 1 ≤ addOrderOf P ∧ addOrderOf P ≤ 24 := by
  have := g.finite
  exact ⟨addOrderOf_pos P, addOrderOf_le_card.trans g.card_le⟩

/-- `pt_ord` answers the order in the group (R137). -/
theorem ptOrd_point (P : G) : ptOrd ca (g.point P) = .ok (addOrderOf P) := by
  obtain ⟨positive, bound⟩ := g.addOrderOf_le P
  have loop := g.ptOrdLoop_point P Config.ordFuel (le_refl 1) positive (Nat.lt_add_one_of_le bound |>.trans_eq (by rfl))
  rwa [one_nsmul] at loop

/-- The order is the least positive number of copies that combine to the identity. -/
theorem ptMul_addOrderOf (P : G) : ptMul ca (g.point P) (addOrderOf P) = .ok Point.identity := by
  rw [g.ptMul_point P (Nat.one_le_iff_ne_zero.1 (g.addOrderOf_le P).1), addOrderOf_nsmul_eq_zero, g.zero]

theorem ptMul_ne_identity_of_lt {P : G} {j : Nat} (positive : 1 ≤ j) (below : j < addOrderOf P) :
    ptMul ca (g.point P) j ≠ .ok Point.identity := by
  rw [g.ptMul_point P (by omega), ne_eq, Except.ok.injEq, g.point_eq_identity_iff]
  exact nsmul_ne_zero_of_lt_addOrderOf (by omega) below

end CurveGroup

end Sys2Proof.Machine

namespace Sys2Proof.Proofs
open Sys2Proof.Machine

/-- Settles O51: the laws of the group of the point's curve, `pt_ord` answering the order in it. -/
theorem identityInverseAndPeriodLaws : Obligations.IdentityInverseAndPeriodLaws := by
  unfold Obligations.IdentityInverseAndPeriodLaws
  intro ca p
  obtain ⟨b, G, _, g, P, rfl⟩ := exists_curveGroup_point ca p
  refine ⟨ptAdd_identity_right ca _, ptAdd_identity_left ca _, ?inverse, ptMul_one ca _, addOrderOf P, g.ptOrd_point P,
    g.ptMul_addOrderOf P, ?period⟩
  case inverse => rw [← g.neg, g.add, add_neg_cancel, g.zero]
  case period => rw [g.ptMul_point P (Nat.succ_ne_zero _), succ_nsmul, addOrderOf_nsmul_eq_zero, zero_add]

end Sys2Proof.Proofs
end

