-- ==== Sys2Proof/Proofs/CurveCommands.lean ====
section
/-! PADD, PMUL and PORD: the word, the refusal, the result (R132, R136, R138). -/

namespace Sys2Proof.Machine
open Sys2Proof.Claims

/-- A command whose computation gives a point answers its coordinates. -/
theorem exec_of_point {i : Instr} {s : State} {c : Calc Point} {t : Point}
    (computation : resultOfInstr s.ca i = pointResult <$> c) (value : c = .ok t) :
    exec i s = .next (answered (0x0#4 ++ t.u ++ t.v) s) := by
  rw [exec_eq_respond, computation, value]
  exact respond_pointResult t s

/-- PORD answers the order in the group of the point's curve. -/
theorem exec_pord_point {s : State} {b : Elem} {G : Type} [AddCommGroup G] (g : CurveGroup s.ca b G) (P : G) :
    exec (.pord (g.point P)) s = .next (answered (0x0#4 ++ BitVec.ofNat 8 (addOrderOf P)) s) := by
  rw [exec_eq_respond, resultOfInstr, g.ptOrd_point]
  rfl

end Sys2Proof.Machine

namespace Sys2Proof.Proofs
open Sys2Proof.Machine Sys2Proof.Claims

/-- Settles O44: `pt_add` has a value exactly off R139's condition. -/
theorem paddCommand : Obligations.PaddCommand := by
  unfold Obligations.PaddCommand
  refine ⟨fun r1 s1 r2 s2 => ?word, fun p q s off => ?sum, fun p q s on => ?zeroDivisor⟩
  case word =>
    rw [append_nibbles]
    exact decode_encode (.padd ⟨r1, s1⟩ ⟨r2, s2⟩)
  case sum =>
    obtain ⟨t, value⟩ := ptAdd_of_not_meets s.ca off
    exact ⟨t, value, exec_of_point rfl value⟩
  case zeroDivisor => exact exec_of_raise (e := .div0) rfl (ptAdd_of_meets s.ca on)

/-- Settles O47: the scalar is checked before anything is computed, and a positive multiple always has a value. -/
theorem pmulCommand : Obligations.PmulCommand := by
  unfold Obligations.PmulCommand
  refine ⟨fun u v c => ?word, fun p s => ?zero, fun p c s hc => ?product, fun u v s => ?one⟩
  case word =>
    rw [append_nibbles_byte]
    exact decode_encode (.pmul ⟨u, v⟩ c)
  case zero => exact exec_of_raise (e := .badScalar) rfl (ptMul_zero s.ca p)
  case product =>
    obtain ⟨t, value⟩ := ptMul_answers s.ca p (c := c.toNat) fun h => hc (BitVec.eq_of_toNat_eq h)
    exact ⟨t, value, exec_of_point rfl value⟩
  case one => exact exec_of_point (t := ⟨u, v⟩) rfl (ptMul_one s.ca ⟨u, v⟩)

/-- Settles O49: the answer is the order in the group of the point's curve, which has at most 24 elements. -/
theorem pordCommand : Obligations.PordCommand := by
  unfold Obligations.PordCommand
  refine ⟨fun u v => ?word, fun u v b s hb => runCommand_P1_reserved (i := .pord ⟨u, v⟩) rfl u v hb s, fun p s => ?order,
    fun s => ?identity⟩
  case word =>
    rw [append_nibbles_byte]
    exact decode_encode (.pord ⟨u, v⟩)
  case order =>
    obtain ⟨b, G, _, g, P, rfl⟩ := exists_curveGroup_point s.ca p
    obtain ⟨positive, bound⟩ := g.addOrderOf_le P
    exact ⟨addOrderOf P, positive, bound, g.ptMul_addOrderOf P, fun j => g.ptMul_ne_identity_of_lt, exec_pord_point g P⟩
  case identity =>
    obtain ⟨G, _, ⟨g⟩⟩ := exists_curveGroup s.ca 0
    rw [← g.zero, exec_pord_point, addOrderOf_zero]
    rfl

end Sys2Proof.Proofs
end

