-- ==== Sys2Proof/Proofs/Answers.lean ====
section
/-! Every command and every step answers (R174), with a status of the command's (R160) and nothing else changed (R22, R48). -/

namespace Sys2Proof.Machine
open Sys2Proof.Safety Sys2Proof.Claims

/-- A computation ends with a value or with a raised status, and the status it answers is in the list; it does not run out of
fuel. -/
def EndsWithin (statuses : List (BitVec 4)) (c : Calc Byte) : Prop :=
  (∃ b, c = .ok b ∧ Status.ok.code ∈ statuses) ∨ ∃ e : ErrorStatus, c = raise e ∧ (Status.error e).code ∈ statuses

theorem EndsWithin.map_ok {α : Type} {statuses : List (BitVec 4)} {f : α → Byte} {c : Calc α}
    (listed : Status.ok.code ∈ statuses) (h : ∃ a, c = .ok a) : EndsWithin statuses (f <$> c) := by
  obtain ⟨a, rfl⟩ := h
  exact .inl ⟨f a, rfl, listed⟩

theorem EndsWithin.map_raise {α : Type} {statuses : List (BitVec 4)} {f : α → Byte} {c : Calc α} {e : ErrorStatus}
    (listed : (Status.error e).code ∈ statuses) (h : c = raise e) : EndsWithin statuses (f <$> c) := by
  rw [h]
  exact .inr ⟨e, rfl, listed⟩

/-- The response to a computation that ends so has a listed status, and `RESULT` zero unless it is OK (R164). -/
theorem EndsWithin.answers {statuses : List (BitVec 4)} {c : Calc Byte} (ends : EndsWithin statuses c) :
    ∃ r, (∀ s, respond c s = .next (answered r s)) ∧ rspStatus r ∈ statuses ∧
      (rspStatus r ≠ 0x0 → rspResult r = 0x00) := by
  obtain ⟨b, rfl, listed⟩ | ⟨e, rfl, listed⟩ := ends
  · exact ⟨okResponse b, fun _ => rfl, by rwa [okResponse, rspStatus_packResponse],
      fun error => absurd (rspStatus_packResponse .ok b) error⟩
  · exact ⟨errorResponse e, fun _ => rfl, by rwa [errorResponse, rspStatus_packResponse],
      fun _ => rspResult_packResponse (.error e) 0x00⟩

/-! ## Commands -/

theorem ok_mem_statusesOf (i : Instr) : Status.ok.code ∈ statusesOf i.opcode := by
  cases i <;> simp only [Instr.opcode] <;> decide

/-- A command whose word can have a reserved bit set can be answered `ILLEGAL`. -/
theorem illegal_mem_statusesOf {w : CmdWord} {i : Instr} (set : ¬ i.format.reservedClear w = true) :
    (Status.error .illegal).code ∈ statusesOf i.opcode := by
  cases i
  case padd | pmul => exact absurd rfl set
  all_goals simp only [Instr.opcode]; decide

/-- Each command's computation ends with a value, or for 0 as divisor or scalar with the status of that error. -/
theorem resultOfInstr_endsWithin (ca : Elem) (i : Instr) : EndsWithin (statusesOf i.opcode) (resultOfInstr ca i) := by
  have ok := ok_mem_statusesOf i
  cases i with
  | fdeg w => exact .inl ⟨_, rfl, ok⟩
  | fadd a b => exact .inl ⟨_, rfl, ok⟩
  | fmul a b => exact .inl ⟨_, rfl, ok⟩
  | fred w =>
    obtain ⟨q, r, -, -, run⟩ := gfRed_remainder w.isLt
    exact .map_ok ok ⟨r, run⟩
  | finv a =>
    by_cases ha : a = 0
    · exact .map_raise (e := .div0) (by simp only [Instr.opcode]; decide) (ha ▸ gfInv_zero)
    · obtain ⟨r, run, -⟩ := gfInv_of_ne_zero ha
      exact .map_ok ok ⟨r, run⟩
  | fdiv a b =>
    by_cases hb : b = 0
    · exact .map_raise (e := .div0) (by simp only [Instr.opcode]; decide) (hb ▸ gfDiv_zero a)
    · obtain ⟨q, run, -⟩ := gfDiv_of_ne_zero a hb
      exact .map_ok ok ⟨q, run⟩
  | padd p q =>
    cases h : meetsZeroDivisor p q
    · exact .map_ok ok (ptAdd_of_not_meets ca h)
    · exact .map_raise (e := .div0) (by simp only [Instr.opcode]; decide) (ptAdd_of_meets ca h)
  | pneg p => exact .inl ⟨_, rfl, ok⟩
  | pmul p c =>
    by_cases hc : c.toNat = 0
    · exact .map_raise (e := .badScalar) (by simp only [Instr.opcode]; decide) (hc ▸ ptMul_zero ca p)
    · exact .map_ok ok (ptMul_answers ca p hc)
  | pord p =>
    obtain ⟨b, G, _, g, P, rfl⟩ := exists_curveGroup_point ca p
    exact .map_ok ok ⟨_, g.ptOrd_point P⟩

/-- Every command answers, under every `CA` and in every state (R174). -/
theorem exec_answers (i : Instr) (s : State) : ∃ r, exec i s = .next (answered r s) := by
  obtain ⟨r, run, -⟩ := (resultOfInstr_endsWithin s.ca i).answers
  exact ⟨r, (exec_eq_respond i s).trans (run s)⟩

/-- The commands that do not read `CA` (R24). -/
theorem resultOfInstr_ignores {i : Instr} (h : ignoresCoefficient i = true) (ca a : Elem) :
    resultOfInstr a i = resultOfInstr ca i := by
  cases i
  case padd | pmul | pord => cases h
  all_goals rfl

/-! ## Words -/

/-- The function of R73 ends with a value or with an error of the opcode's list, on every word. -/
theorem resultOf_endsWithin (ca : Elem) (w : CmdWord) : EndsWithin (statusesOf (opc w)) (resultOf ca w) := by
  cases h : decode w with
  | ok i =>
    rw [(opc_and_reservedClear_of_decode h).1, ← encode_of_decode h, resultOf_encode]
    exact resultOfInstr_endsWithin ca i
  | error e =>
    refine .inr ⟨.illegal, resultOf_of_decode_error ca h, ?_⟩
    obtain ⟨reserved, -⟩ | ⟨i, opcode, e'⟩ := decode_cases w
    · revert reserved
      generalize opc w = o
      revert o
      decide
    · rw [opcode]
      refine illegal_mem_statusesOf (w := w) fun clear => ?_
      rw [e', readOperands_clear _ _ _ clear] at h
      cases h

/-- The execute step answers every word with the response of R73 (R174). -/
theorem runCommand_answers (w : CmdWord) (s : State) :
    ∃ r, responseTo s.ca w = some r ∧ runCommand w s = .next (answered r s) := by
  obtain ⟨r, run, -⟩ := (resultOf_endsWithin s.ca w).answers
  have answer : runCommand w s = .next (answered r s) := (runCommand_eq_respond w s).trans (run s)
  obtain ⟨r', response, same⟩ := runCommand_eq_next_iff.1 answer
  exact ⟨r', response, same ▸ answer⟩

/-! ## Steps -/

/-- A step at a sample answers, whatever the phase. -/
theorem stepAt_answers (x : Sample) (s : State) : ∃ t, stepAt x s = .next t := by
  obtain ⟨-, e⟩ | ⟨-, -, -, e⟩ | ⟨w, -, -, -, e⟩ | ⟨r, -, -, -, e⟩ | ⟨-, e⟩ := stepAt_cases x s
  case inr.inr.inl =>
    obtain ⟨r, -, run⟩ := runCommand_answers w s
    exact ⟨_, e.trans run⟩
  all_goals exact ⟨_, e⟩

theorem step_answers (s : State) : ∃ t, step s = .next t := by
  cases hin : s.inputs with
  | nil =>
    rw [step_quiet hin]
    obtain ⟨w, -, e⟩ | ⟨-, e⟩ := stepQuiet_cases s
    · obtain ⟨r, -, run⟩ := runCommand_answers w s
      exact ⟨_, e.trans run⟩
    · exact ⟨_, e⟩
  | cons x rest =>
    rw [step_sample hin]
    exact stepAt_answers x _

/-- A BUSY engine executes at once if it may, with the response of R73. -/
theorem step_busy_answers {s : State} {w : CmdWord} (busy : s.phase = .busy w) (may : mayExecute s = true) :
    ∃ r, responseTo s.ca w = some r ∧ step s = .next (answered r (sampleTaken s)) := by
  rw [step_busy busy may]
  exact runCommand_answers w (sampleTaken s)

/-- Within `n` steps the engine has the response of R73 to `w` in `RSPR`. -/
def ExecutesWithin (n : Nat) (w : CmdWord) (s : State) : Prop :=
  ∃ (k : Nat) (t : State) (r : RspWord), k ≤ n ∧ Sys2Proof.core.run k s = .next t ∧ t.phase = .done r ∧
    responseTo s.ca w = some r

theorem executesWithin_of_mayExecute {s : State} {w : CmdWord} (n : Nat) (busy : s.phase = .busy w)
    (may : mayExecute s = true) : ExecutesWithin (n + 1) w s := by
  obtain ⟨r, response, run⟩ := step_busy_answers busy may
  exact ⟨1, _, r, Nat.le_add_left 1 n, run_succ run 0, rfl, response⟩

theorem executesWithin_of_step {s t : State} {w : CmdWord} {n : Nat} (h : step s = .next t) (same : t.ca = s.ca)
    (later : ExecutesWithin n w t) : ExecutesWithin (n + 1) w s := by
  obtain ⟨k, u, r, bound, run, done, response⟩ := later
  exact ⟨k + 1, u, r, Nat.succ_le_succ bound, (run_succ h k).trans run, done, same ▸ response⟩

/-- A BUSY engine that is not reset executes at the first sample that lets it, or when no sample is left (R48). -/
theorem executesWithin_of_busy (xs : List Sample) {s : State} {w : CmdWord} (hin : s.inputs = xs)
    (busy : s.phase = .busy w) (low : ∀ x ∈ xs, x.rst = false) : ExecutesWithin (xs.length + 1) w s := by
  induction xs generalizing s with
  | nil => exact executesWithin_of_mayExecute 0 busy (by simp [mayExecute, hin])
  | cons x rest ih =>
    have hr : x.rst = false := low x List.mem_cons_self
    cases hl : x.latDone with
    | true => exact executesWithin_of_mayExecute _ busy (by simp [mayExecute, hin, hr, hl])
    | false =>
      exact executesWithin_of_step (step_busy_computing hin hr busy hl) rfl
        (ih rfl busy fun y hy => low y (List.mem_cons_of_mem x hy))

/-- A run that is over stays over: an IDLE engine with no offer to come waits, or is reset. -/
theorem step_of_runOver {s : State} (ended : runOver s = true) :
    ∃ t, step s = .next t ∧ runOver t = true ∧ t.outputs = s.outputs := by
  simp only [runOver, Bool.and_eq_true, beq_iff_eq] at ended
  obtain ⟨idle, noOffer⟩ := ended
  cases hin : s.inputs with
  | nil =>
    exact ⟨s, step_quiet_not_busy hin (by simp [idle]), by simp [runOver, idle, hin], rfl⟩
  | cons x rest =>
    simp only [hin, List.all_cons, Bool.and_eq_true, Bool.not_eq_true'] at noOffer
    obtain ⟨notOffered, later⟩ := noOffer
    cases hr : x.rst with
    | true => exact ⟨_, step_rst hin hr, by simpa [runOver] using later, rfl⟩
    | false => exact ⟨_, step_idle_no_offer hin hr idle notOffered, by simpa [runOver, idle] using later, rfl⟩

end Sys2Proof.Machine

namespace Sys2Proof.Proofs
open Sys2Proof.Machine

/-- Settles O9: the execute step is the end of the computation of R73, which has an end on every word. -/
theorem executeStepIsTheExecFunction : Obligations.ExecuteStepIsTheExecFunction := by
  unfold Obligations.ExecuteStepIsTheExecFunction
  intro s w busy may
  exact step_busy_answers busy may

/-- Settles O18: the computation of such a command is the same under every `CA`, and it has an end. -/
theorem fieldCommandsIgnoreTheCoefficient : Obligations.FieldCommandsIgnoreTheCoefficient := by
  unfold Obligations.FieldCommandsIgnoreTheCoefficient
  intro i s a ignores
  obtain ⟨r, run, -⟩ := (resultOfInstr_endsWithin s.ca i).answers
  refine ⟨r, (exec_eq_respond i s).trans (run s), ?_⟩
  rw [exec_eq_respond, resultOfInstr_ignores ignores s.ca a]
  exact run _

/-- Settles O19: of the steps only the execute step could stop, and no loop of a command runs out of fuel. -/
theorem everyStepAnswers : Obligations.EveryStepAnswers := by
  unfold Obligations.EveryStepAnswers
  refine ⟨step_answers, fun i s => ?_⟩
  obtain ⟨r, run⟩ := exec_answers i s
  exact ⟨_, run⟩

/-- Settles O20: the computation of R73 is from `CA` and the word alone. -/
theorem responseDependsOnCoefficientAndWord : Obligations.ResponseDependsOnCoefficientAndWord := by
  unfold Obligations.ResponseDependsOnCoefficientAndWord
  intro s t w same
  obtain ⟨r, run, -⟩ := (resultOf_endsWithin s.ca w).answers
  refine ⟨r, (runCommand_eq_respond w s).trans (run s), ?_⟩
  rw [runCommand_eq_respond, ← same]
  exact run t

/-- Settles O22: each sample at which the engine is still computing leaves one fewer, and then it executes. -/
theorem busyEngineExecutes : Obligations.BusyEngineExecutes := by
  unfold Obligations.BusyEngineExecutes
  intro s w busy low
  exact executesWithin_of_busy s.inputs rfl busy low

/-- Settles O23: an IDLE engine without an offer waits or is reset, and only a reset writes `CA`. -/
theorem finishedRunStaysFinished : Obligations.FinishedRunStaysFinished := by
  unfold Obligations.FinishedRunStaysFinished
  intro s ended
  obtain ⟨t, h, stays, nothing⟩ := step_of_runOver ended
  exact ⟨t, h, stays, nothing, fun low => step_without_reset_ca (fun x rest hin => low x (by simp [hin])) h⟩

/-- Settles O27: every command is the end of a computation, which writes `RSPR` and `PHASE`. -/
theorem commandsWriteOnlyTheResponse : Obligations.CommandsWriteOnlyTheResponse := by
  unfold Obligations.CommandsWriteOnlyTheResponse
  intro i s t h
  rw [exec_eq_respond] at h
  exact respond_next h

/-- Settles O29: each computation's errors are in its opcode's list, and a word that is no command raises `ILLEGAL`. -/
theorem statusesByCommand : Obligations.StatusesByCommand := by
  unfold Obligations.StatusesByCommand
  intro w s
  obtain ⟨r, run, listed, zero⟩ := (resultOf_endsWithin s.ca w).answers
  exact ⟨r, (runCommand_eq_respond w s).trans (run s), listed, zero⟩

end Sys2Proof.Proofs
end
